-- ==== Sys2Proof/Word.lean ====
section
/-! DEFINITION. The word types of the machine: the byte, the 16-bit word and the 12-bit immediate address.
Rules R6, R7 and R82 of spec/00_scope.md and spec/30_encoding.md; every value is unsigned (R7). -/

namespace Sys2Proof

/-- A memory cell, a general register and the immediate NN: 8 bits (R6, R21, R82). -/
abbrev Byte := BitVec 8

/-- The instruction word, `I`, `pc` and `sp`: 16 bits (R6, R80). -/
abbrev Word := BitVec 16

/-- The immediate address NNN: 12 bits (R82). -/
abbrev Addr := BitVec 12

/-- A register number, selected by the 4-bit field X or Y (R21). -/
abbrev RegIx := Fin 16

end Sys2Proof
end

