-- ==== Sys2Proof/Syntax.lean ====
section
/-! DEFINITION. The instructions: one constructor per row of spec/opcode_table.json (rule R85, spec/30_encoding.md).
Operands are the fields the row's format names (R83). An unexecuted row carries its 12 ignored bits, as its syntax
`UNXc nnn` does (R92), so that no bit of a word is lost in decoding. -/

namespace Sys2Proof

inductive Instr where
  /-- `CLS`, the word `0x00E0` (R130). -/
  | cls
  /-- `UNX0 nnn`, `0x0NNN` other than `0x00E0` (R151). -/
  | unx0 (nnn : Addr)
  /-- `JP nnn`, `0x1NNN` (R100). -/
  | jp (nnn : Addr)
  /-- `UNX2 nnn` (R152). -/
  | unx2 (nnn : Addr)
  /-- `UNX3 nnn` (R153). -/
  | unx3 (nnn : Addr)
  /-- `UNX4 nnn` (R154). -/
  | unx4 (nnn : Addr)
  /-- `UNX5 nnn` (R155). -/
  | unx5 (nnn : Addr)
  /-- `LD Vx, nn`, `0x6XNN` (R110). -/
  | ldVx (x : RegIx) (nn : Byte)
  /-- `ADD Vx, nn`, `0x7XNN` (R111). -/
  | addVx (x : RegIx) (nn : Byte)
  /-- `UNX8 nnn` (R156). -/
  | unx8 (nnn : Addr)
  /-- `UNX9 nnn` (R157). -/
  | unx9 (nnn : Addr)
  /-- `LD I, nnn`, `0xANNN` (R112). -/
  | ldI (nnn : Addr)
  /-- `UNXB nnn` (R158). -/
  | unxB (nnn : Addr)
  /-- `UNXC nnn` (R159). -/
  | unxC (nnn : Addr)
  /-- `DRW Vx, Vy, n`, `0xDXYN`; `n` is a row count from 0 to 15 (R84, R131). -/
  | drw (x y : RegIx) (n : Fin 16)
  /-- `UNXE nnn` (R160). -/
  | unxE (nnn : Addr)
  /-- `UNXF nnn` (R161). -/
  | unxF (nnn : Addr)
  deriving DecidableEq, Repr

/-- The row's mnemonic, as spec/opcode_table.json spells it (R92 for the spec's own spelling). -/
def Instr.mnemonic : Instr → String
  | .cls => "CLS"
  | .unx0 _ => "UNX0"
  | .jp _ => "JP"
  | .unx2 _ => "UNX2"
  | .unx3 _ => "UNX3"
  | .unx4 _ => "UNX4"
  | .unx5 _ => "UNX5"
  | .ldVx _ _ => "LD_Vx"
  | .addVx _ _ => "ADD_Vx"
  | .unx8 _ => "UNX8"
  | .unx9 _ => "UNX9"
  | .ldI _ => "LD_I"
  | .unxB _ => "UNXB"
  | .unxC _ => "UNXC"
  | .drw _ _ _ => "DRW"
  | .unxE _ => "UNXE"
  | .unxF _ => "UNXF"

/-- The instruction is one of the eleven rows no handler executes (R4, R150). -/
def Instr.unexecuted : Instr → Bool
  | .unx0 _ | .unx2 _ | .unx3 _ | .unx4 _ | .unx5 _ | .unx8 _ | .unx9 _ | .unxB _ | .unxC _ | .unxE _ | .unxF _ => true
  | .cls | .jp _ | .ldVx _ _ | .addVx _ _ | .ldI _ | .drw _ _ _ => false

end Sys2Proof
end

