-- ==== Sys2Proof/WellFormed.lean ====
section
/-! DEFINITION. Which instructions are the reading of some word. The field widths are in the types of `Instr`; what
is left is the one exclusion of the opcode table: `UNX0` never carries `0x0E0`, since that word is `CLS`
(R86, R151). -/

namespace Sys2Proof

/-- The instruction has an encoding of its own (R85, R86, R92). -/
def Instr.wellFormed : Instr → Bool
  | .unx0 nnn => nnn != 0x0E0
  | .cls | .jp _ | .unx2 _ | .unx3 _ | .unx4 _ | .unx5 _ | .ldVx _ _ | .addVx _ _ | .unx8 _ | .unx9 _ | .ldI _
  | .unxB _ | .unxC _ | .drw _ _ _ | .unxE _ | .unxF _ => true

/-- `Instr.wellFormed` as a proposition. -/
abbrev WellFormed (i : Instr) : Prop := i.wellFormed = true

end Sys2Proof
end

