-- ==== Sys2Proof/Decode.lean ====
section
/-! DEFINITION. From bytes to instructions and back: byte order (R55, R80), fields (R82), the opcode map (R85, R86),
and the encoder (R92). Decoding reads the word alone (R90). -/

namespace Sys2Proof

/-- Bytes, highest-order first, as one word: `W = hi * 256 + lo` for two of them (R55, R80). -/
def wordOfBytes (bytes : List Byte) : Word :=
  bytes.foldl (fun w b => w <<< 8 ||| b.setWidth 16) 0

/-- The two bytes of a word as memory holds them, the high-order byte at the lower address (R55, R80). -/
def bytesOfWord (w : Word) : List Byte :=
  [w.extractLsb' 8 8, w.extractLsb' 0 8]

/-- `cls = W[15:12]` (R82). -/
def fieldCls (w : Word) : Fin 16 := (w.extractLsb' 12 4).toFin

/-- `X = W[11:8]` (R82). -/
def fieldX (w : Word) : RegIx := (w.extractLsb' 8 4).toFin

/-- `Y = W[7:4]` (R82). -/
def fieldY (w : Word) : RegIx := (w.extractLsb' 4 4).toFin

/-- `N = W[3:0]` (R82). -/
def fieldN (w : Word) : Fin 16 := (w.extractLsb' 0 4).toFin

/-- `NN = W[7:0]` (R82). -/
def fieldNN (w : Word) : Byte := w.extractLsb' 0 8

/-- `NNN = W[11:0]` (R82). -/
def fieldNNN (w : Word) : Addr := w.extractLsb' 0 12

/-- The opcode map, one line per value of `cls`, apart from the word `0x00E0` (R85). -/
def opcodeMap : Vector (Word → Instr) 16 :=
  #v[fun w => .unx0 (fieldNNN w),
     fun w => .jp (fieldNNN w),
     fun w => .unx2 (fieldNNN w),
     fun w => .unx3 (fieldNNN w),
     fun w => .unx4 (fieldNNN w),
     fun w => .unx5 (fieldNNN w),
     fun w => .ldVx (fieldX w) (fieldNN w),
     fun w => .addVx (fieldX w) (fieldNN w),
     fun w => .unx8 (fieldNNN w),
     fun w => .unx9 (fieldNNN w),
     fun w => .ldI (fieldNNN w),
     fun w => .unxB (fieldNNN w),
     fun w => .unxC (fieldNNN w),
     fun w => .drw (fieldX w) (fieldY w) (fieldN w),
     fun w => .unxE (fieldNNN w),
     fun w => .unxF (fieldNNN w)]

/-- The instruction a word selects: the whole word `0x00E0` first, then the class nibble (R85, R86, R88). Every word
selects one, none is illegal (R87). -/
def decode (w : Word) : Instr :=
  if w = 0x00E0 then .cls else opcodeMap[fieldCls w] w

/-- Why a string of bytes holds no instruction. No word is rejected (R87); a string can only be too short. -/
inductive DecodeError where
  /-- There is no byte. -/
  | noBytes
  /-- There is one byte, and an instruction is two (R81). -/
  | oneByte
  deriving DecidableEq, Repr

/-- The instruction at the head of a string of bytes, with the bytes behind it (R80, R81). -/
def decodeBytes : List Byte → Except DecodeError (Instr × List Byte)
  | [] => .error .noBytes
  | [_] => .error .oneByte
  | hi :: lo :: rest => .ok (decode (wordOfBytes [hi, lo]), rest)

/-- The host's reading of one opcode-table row: `w` numbers the word's bits as the table does, `nbits` of them given
and the rest 0. The word is laid out high byte first and given to `decodeBytes`. An instruction is 16 bits (R81), so
a longer row is none of this table's. -/
def decodeTableWord (nbits w : Nat) : Option Instr :=
  if nbits ≤ 16 then
    match decodeBytes (bytesOfWord (BitVec.ofNat 16 (w % 2 ^ nbits))) with
    | .ok (i, _) => some i
    | .error _ => none
  else none

/-- Format `A` and `U`: class, then 12 bits (R83). -/
def wordA (cls : BitVec 4) (nnn : Addr) : Word := cls ++ nnn

/-- Format `I`: class, register, byte (R83). -/
def wordI (cls : BitVec 4) (x : RegIx) (nn : Byte) : Word :=
  cls ++ BitVec.ofFin (w := 4) x ++ nn

/-- Format `R`: class, register, register, nibble (R83). -/
def wordR (cls : BitVec 4) (x y : RegIx) (n : Fin 16) : Word :=
  cls ++ BitVec.ofFin (w := 4) x ++ BitVec.ofFin (w := 4) y ++ BitVec.ofFin (w := 4) n

/-- The word of an instruction (R83, R92). Its bytes in memory are `bytesOfWord`. -/
def encode : Instr → Word
  | .cls => 0x00E0
  | .unx0 nnn => wordA 0x0 nnn
  | .jp nnn => wordA 0x1 nnn
  | .unx2 nnn => wordA 0x2 nnn
  | .unx3 nnn => wordA 0x3 nnn
  | .unx4 nnn => wordA 0x4 nnn
  | .unx5 nnn => wordA 0x5 nnn
  | .ldVx x nn => wordI 0x6 x nn
  | .addVx x nn => wordI 0x7 x nn
  | .unx8 nnn => wordA 0x8 nnn
  | .unx9 nnn => wordA 0x9 nnn
  | .ldI nnn => wordA 0xA nnn
  | .unxB nnn => wordA 0xB nnn
  | .unxC nnn => wordA 0xC nnn
  | .drw x y n => wordR 0xD x y n
  | .unxE nnn => wordA 0xE nnn
  | .unxF nnn => wordA 0xF nnn

end Sys2Proof
end

