-- ==== Sys2Proof/Config.lean ====
section
/-! DEFINITION. What is fixed for one machine: the parameters of rule R6 (spec/00_scope.md), and the one OPEN
parameter FONT (decision D14), a free value. -/

namespace Sys2Proof.Config

/-- `MEM_SIZE`: addresses `0x000` to `0xFFF` (R6, R50). -/
abbrev memSize : Nat := 0x1000

/-- `PROG_BASE`: where the program image starts, and the reset program counter (R6, R205). -/
abbrev progBase : Nat := 0x200

/-- The font region is `0x000` to `0x1FF` (R6, R52). -/
abbrev fontRegion : Nat := 0x200

/-- `ROM_MAX`: the largest program image accepted (R6, R207; decision D13). -/
abbrev romMax : Nat := 3584

/-- `SP_RESET` (R6, R31). -/
abbrev spReset : Word := 0x0FA0

/-- `DISP_W`: display columns (R6, R33). -/
abbrev dispWidth : Nat := 64

/-- `DISP_H`: display rows (R6, R33). -/
abbrev dispHeight : Nat := 32

/-- The font region's bytes at reset: `FONT[a]` for `a < FONT_LEN`, then `0x00` up to `0x1FF`; looked at below
`fontRegion` only. FREE VALUE: the spec leaves FONT open (R6, R201, decision D14), so this constant has no body.
Every FONT of at most 512 bytes, padded with zeros, is one such function, so a claim about this constant is a claim
about every FONT. DESIGN CHOICE, safe: notes/assumptions/1.md. -/
opaque fontByte : Nat → Byte

/-- The machine's FONT is the list `font`: R40 and R201 say byte `a` of the region is `FONT[a]` below `FONT_LEN` and
`0x00` above it, and `FONT_LEN <= 512`. A claim that depends on font bytes takes this as its premise (D14). -/
def FontIs (font : List Byte) : Prop :=
  font.length ≤ fontRegion ∧ ∀ a, a < fontRegion → fontByte a = font.getD a 0

/-- The conventional 80-byte table, the spec's default of FONT. General knowledge, not in the source
(spec/93_implementation_defined.md G1): nothing in the machine uses it; a claim may say `FontIs conventionalFont`.
PRESUMED: notes/assumptions/1.md. -/
def conventionalFont : List Byte :=
  [0xF0, 0x90, 0x90, 0x90, 0xF0] ++ [0x20, 0x60, 0x20, 0x20, 0x70] ++ [0xF0, 0x10, 0xF0, 0x80, 0xF0] ++
  [0xF0, 0x10, 0xF0, 0x10, 0xF0] ++ [0x90, 0x90, 0xF0, 0x10, 0x10] ++ [0xF0, 0x80, 0xF0, 0x10, 0xF0] ++
  [0xF0, 0x80, 0xF0, 0x90, 0xF0] ++ [0xF0, 0x10, 0x20, 0x40, 0x40] ++ [0xF0, 0x90, 0xF0, 0x90, 0xF0] ++
  [0xF0, 0x90, 0xF0, 0x10, 0xF0] ++ [0xF0, 0x90, 0xF0, 0x90, 0x90] ++ [0xE0, 0x90, 0xE0, 0x90, 0xE0] ++
  [0xF0, 0x80, 0x80, 0x80, 0xF0] ++ [0xE0, 0x90, 0x90, 0x90, 0xE0] ++ [0xF0, 0x80, 0xF0, 0x80, 0xF0] ++
  [0xF0, 0x80, 0xF0, 0x80, 0x80]

end Sys2Proof.Config
end

