-- ==== Sys2Proof/Machine/State.lean ====
section
/-! DEFINITION. The machine's state: exactly the components of rule R20 (spec/10_state.md), plain data, and their
reset values (R40). -/

namespace Sys2Proof.Machine

/-- Memory (R50): address and byte pairs in one canonical form, `Memory.wf` of Machine/Ops.lean. An address that is
not listed reads as it does after reset with nothing loaded, `Memory.unlisted` of the same file. -/
abbrev Memory := List Host.Cell

/-- The display (R33): 32 rows, row 0 at the top, of 64 cells, column 0 at the left. A cell holds 0 or 1 (R34) and is
held as one bit, which R34 allows. It is a store of its own, no part of memory (R33, R51). -/
abbrev Display := Vector (Vector Bool 64) 32

/-- What a cycle raises, with its `info` (R172): the machine's two synchronous exceptions. -/
inductive Cause where
  /-- A byte address above `0xFFF` would be read; raised by the fetch and by `DRW` (R173). The address is a number,
  as R173 asks, not an assumed constant. -/
  | addressOutOfRange (address : Nat)
  /-- A set sprite bit has its destination outside the grid; raised by `DRW` (R174). -/
  | drawOutOfRange (x y : Nat)
  deriving DecidableEq, Repr

/-- The cause code (R172; numbering is the spec's decision D5). -/
def Cause.code : Cause → Nat
  | .addressOutOfRange _ => 1
  | .drawOutOfRange _ _ => 2

/-- Whether the engine still executes cycles (R37). `faulted` is the machine's only cause register (R32). -/
inductive RunState where
  | running
  | halted
  | faulted (cause : Cause)
  deriving DecidableEq, Repr

/-- The architectural state (R20). Nothing else is state: no timer, key, stack memory, cache or pending bit. -/
structure State where
  /-- `Mem` (R50). -/
  mem : Memory
  /-- `V[0]` to `V[15]`; `V[15]` is VF (R21). -/
  v : Vector Byte 16
  /-- The index register `I` (R29). -/
  i : Word
  /-- The program counter (R24). -/
  pc : Word
  /-- The stack pointer, which no instruction reads or writes (R31). -/
  sp : Word
  /-- `Disp` (R33). -/
  disp : Display
  /-- `draw_dirty`, true for 1: the display may have changed since the host last acknowledged it (R35). -/
  drawDirty : Bool
  /-- `run_state` (R37). -/
  runState : RunState
  deriving DecidableEq, Repr

/-- Reasons a step could stop the MODEL without a next state. There is none: both of the machine's faults are states
it goes to (`RunState.faulted`, R175), so no instruction and no step answers `.fault`. Safe: a model that always
answers a next state forbids nothing the spec allows. -/
inductive Fault where
  deriving DecidableEq, Repr

/-- Why the model gives no next state. -/
inductive Refusal where
  /-- Raised by an arm of `exec` that has no meaning yet; no arm does. Safe: nothing is claimed of it. -/
  | notModelled (mnemonic : String)
  /-- Raised by the host's `LoadROM` (Machine/HostInterface.lean) for an image of `length` bytes, more than 3584: the
  spec refuses it whole (R207). No instruction and no step raises it. Safe: the spec's own behaviour. -/
  | imageTooLong (length : Nat)
  deriving DecidableEq, Repr

/-- The display with every cell 0. -/
def Display.blank : Display := Vector.replicate 32 (Vector.replicate 64 false)

/-- The state after `Reset` (R40, R200 to R204). Memory lists nothing: the font and the zero fill are what an unlisted
address reads as (R201). -/
def State.reset : State where
  mem := []
  v := Vector.replicate 16 0
  i := 0
  pc := 0x0200
  sp := Config.spReset
  disp := Display.blank
  drawDirty := true
  runState := .running

end Sys2Proof.Machine
end

