-- ==== Sys2Proof/Machine/Ops.lean ====
section
/-! DEFINITION. The named operations over memory, registers, display and control that the meanings call, taking an
exception among them, and the fetch. Rules of spec/10_state.md, 20_memory.md, 30_encoding.md and 60_exceptions.md. -/

namespace Sys2Proof.Machine

/-! Memory. -/

/-- What an unlisted address holds: the reset contents, font region first, zero above (R40, R52, R201). -/
def Memory.unlisted (a : Nat) : Byte :=
  if a < Config.fontRegion then Config.fontByte a else 0

/-- The byte at address `a`, without the range check. -/
def Memory.lookup : Memory → Nat → Byte
  | [], a => Memory.unlisted a
  | (k, b) :: rest, a => if k = a then b else Memory.lookup rest a

/-- The memory with byte `b` at `a`. It keeps the canonical form: the list stays sorted, and an entry equal to what an
unlisted address reads as is not listed. -/
def Memory.store : Memory → Nat → Byte → Memory
  | [], a, b => if b = Memory.unlisted a then [] else [(a, b)]
  | (k, c) :: rest, a, b =>
    if a < k then
      if b = Memory.unlisted a then (k, c) :: rest else (a, b) :: (k, c) :: rest
    else if a = k then
      if b = Memory.unlisted a then rest else (a, b) :: rest
    else (k, c) :: Memory.store rest a b

/-- The list is canonical from address `lo` on: addresses rise strictly, lie below `0x1000` (R50), and no entry
equals what an unlisted address reads as. -/
def Memory.wfFrom (lo : Nat) : Memory → Bool
  | [] => true
  | (k, b) :: rest =>
    decide (lo ≤ k) && decide (k < Config.memSize) && b != Memory.unlisted k && Memory.wfFrom (k + 1) rest

/-- The canonical form of memory: equal memories are equal lists. -/
def Memory.wf (m : Memory) : Bool := Memory.wfFrom 0 m

/-- One byte read, with the only check there is on an address (R53, R65, R66): above `0xFFF` the read raises. -/
def readByte (m : Memory) (a : Nat) : Except Cause Byte :=
  if a < Config.memSize then .ok (m.lookup a) else .error (.addressOutOfRange a)

/-- `MemRead(addr, n)` (R53): the bytes, lowest address first, or the lowest address out of range. Addresses are
mathematical integers and do not wrap. -/
def memRead (m : Memory) (a : Nat) : Nat → Except Cause (List Byte)
  | 0 => .ok []
  | n + 1 =>
    match readByte m a with
    | .error c => .error c
    | .ok b =>
      match memRead m (a + 1) n with
      | .error c => .error c
      | .ok bs => .ok (b :: bs)

/-- `MemWrite(addr, n, v)` (R54), the loader's primitive; no instruction uses it. -/
def memWrite : Memory → Nat → List Byte → Memory
  | m, _, [] => m
  | m, a, b :: bs => memWrite (m.store a b) (a + 1) bs

/-! General registers (R21, R22): none is hardwired. -/

/-- `V[x]`. -/
def readV (s : State) (x : RegIx) : Byte := s.v[x]

/-- `V[x] <- b`. -/
def writeV (s : State) (x : RegIx) (b : Byte) : State := { s with v := s.v.set x b }

/-- VF is `V[15]` (R21). -/
abbrev vf : RegIx := 15

/-! The display (R33). -/

/-- A cell of the grid: its column and its row. -/
abbrev Pixel := Fin 64 × Fin 32

/-- `Disp[x, y]` is 1. -/
def Display.get (d : Display) (p : Pixel) : Bool := d[p.2][p.1]

/-- `Disp[x, y] <- Disp[x, y] XOR 1`, the only way an instruction changes one cell (R34, R131). -/
def Display.toggle (d : Display) (p : Pixel) : Display :=
  d.set p.2 (d[p.2].set p.1 (!d[p.2][p.1]))

/-! The end of a cycle. -/

/-- `pc <- (pc + 2) mod 2^16`, the last line of every instruction but `JP` (R25, R89). -/
def advance (s : State) : State := { s with pc := s.pc + 2 }

/-- Taking a fault is `run_state <- Faulted(cause, info)` and nothing else: there is no handler, no vector, no saved
register, no mode, and `pc` stays at the instruction (R175, R176). There is no return beside it: only `Reset` leaves
`Faulted` (R178). -/
def raise (c : Cause) (s : State) : State := { s with runState := .faulted c }

/-- The halt (R171): `run_state <- Halted` and nothing else. -/
def halt (s : State) : State := { s with runState := .halted }

/-! The fetch (R80, R88). -/

/-- `W`, from two byte reads at `pc` and `pc + 1`, big-endian, at any address (R57, R80); at `pc = 0xFFF` the second
byte's address raises (R66, decision D3). -/
def fetchWord (m : Memory) (pc : Nat) : Except Cause Word :=
  match memRead m pc 2 with
  | .ok bytes => .ok (wordOfBytes bytes)
  | .error c => .error c

/-- What the tests before execution answer, in the order of R88 and R177. -/
inductive Fetched where
  /-- `run_state` is not `Running`: the tick does nothing (R182). -/
  | inert
  /-- `pc >= 0x1000`: the machine halts before any access (R171). -/
  | pastEnd
  /-- The fetch raised. -/
  | raised (c : Cause)
  /-- The instruction word. -/
  | word (w : Word)
  deriving DecidableEq, Repr

/-- The tests before execution (R88, R177): run state, end of memory (`pc >= 0x1000`, decision D2), fetch. -/
def fetchStage (s : State) : Fetched :=
  match s.runState with
  | .running =>
    if Config.memSize ≤ s.pc.toNat then .pastEnd
    else
      match fetchWord s.mem s.pc.toNat with
      | .ok w => .word w
      | .error c => .raised c
  | .halted => .inert
  | .faulted _ => .inert

end Sys2Proof.Machine
end

