-- ==== Sys2Proof/Machine/Operands.lean ====
section
/-! DEFINITION. Every operand form (R84 of spec/30_encoding.md): the immediates, all zero-extended and unscaled, the
draw origin, and the sprite data at `I`. -/

namespace Sys2Proof.Machine

/-- `zext_16(NNN)`, a 12-bit address widened with zeros (R84). -/
def zext16 (nnn : Addr) : Word := nnn.setWidth 16

/-- A coordinate of the draw origin: the contents of a register as an integer from 0 to 255, neither clamped nor
masked (R131, corner cases (c) and (i)). -/
def coordinate (s : State) (x : RegIx) : Nat := (readV s x).toNat

/-- The address of sprite row 0: `I` as an integer (R29, R131). -/
def spriteBase (s : State) : Nat := s.i.toNat

/-- Column offset `c` of a sprite byte is bit `7 - c`: bit 7 is the leftmost pixel (R56, R131). -/
def spriteBit (row : Byte) (c : Nat) : Bool := row.getLsbD (7 - c)

/-- The column offsets of a sprite row in scan order (R131). -/
def columnOffsets : List Nat := [0, 1, 2, 3, 4, 5, 6, 7]

/-- Phase 1 of `DRW` on one sprite byte drawn from column `x0` in row `y` (R131): the destinations of its set bits in
scan order, or the first of them that is outside the grid. A clear bit has no destination and is not tested. A
destination is the plain sum: no wrap, no clipping (R131 corner cases (a) and (b), decision D6). -/
def scanRow (row : Byte) (x0 y : Nat) : List Nat → Except Cause (List Pixel)
  | [] => .ok []
  | c :: cs =>
    if spriteBit row c then
      if h : x0 + c < 64 ∧ y < 32 then
        match scanRow row x0 y cs with
        | .ok ps => .ok ((⟨x0 + c, h.1⟩, ⟨y, h.2⟩) :: ps)
        | .error e => .error e
      else .error (.drawOutOfRange (x0 + c) y)
    else scanRow row x0 y cs

/-- Phase 1 of `DRW` (R131) on `n` rows, of which this is row `r`: in each row the address first, then the row's bits
(R177, decision D7). It reads and checks, and changes nothing. -/
def scanRows (m : Memory) (base x0 y0 : Nat) : (n r : Nat) → Except Cause (List Pixel)
  | 0, _ => .ok []
  | n + 1, r =>
    match readByte m (base + r) with
    | .error e => .error e
    | .ok row =>
      match scanRow row x0 (y0 + r) columnOffsets with
      | .error e => .error e
      | .ok here =>
        match scanRows m base x0 y0 n (r + 1) with
        | .error e => .error e
        | .ok later => .ok (here ++ later)

/-- The destinations of a `DRW`'s set sprite bits, in scan order, or what its phase 1 raises. The origin is read from
the registers as they stand before VF is cleared (decision D9). -/
def scanSprite (s : State) (x y : RegIx) (n : Fin 16) : Except Cause (List Pixel) :=
  scanRows s.mem (spriteBase s) (coordinate s x) (coordinate s y) n 0

end Sys2Proof.Machine
end

