-- ==== Sys2Proof/Machine/ControlTransfer.lean ====
section
/-! DEFINITION. Control transfer: `JP` (spec/40_control_transfer.md). -/

namespace Sys2Proof.Machine

/-- `JP nnn` (R100): `pc <- zext_16(NNN)`, no advance in this cycle, and the target is not checked. -/
def execJp (nnn : Addr) (s : State) : Host.Outcome State Fault Refusal :=
  .next { s with pc := zext16 nnn }

end Sys2Proof.Machine
end

