-- ==== Sys2Proof/Machine/Flags.lean ====
section
/-! DEFINITION. What plays the part of flags (R28 of spec/10_state.md): the collision value of VF, and `draw_dirty`.
There is no flags register and no condition code; `ADD` writes no carry (R22, R28). -/

namespace Sys2Proof.Machine

/-- VF after a `DRW`: `0x01` when a toggled pixel was on before, `0x00` otherwise (R28, R131). -/
def collisionFlag (hit : Bool) : Byte := if hit then 0x01 else 0x00

/-- `draw_dirty <- 1` (R35). -/
def markDirty (s : State) : State := { s with drawDirty := true }

end Sys2Proof.Machine
end

