-- ==== Sys2Proof/Machine/Display.lean ====
section
/-! DEFINITION. Display instructions: `CLS`, and `DRW` with the sprite blitter (spec/42_display.md). -/

namespace Sys2Proof.Machine

/-- `CLS` (R130): every cell 0, `draw_dirty` raised also when the display was blank (decision D10), no jump. -/
def execCls (s : State) : Host.Outcome State Fault Refusal :=
  .next (advance (markDirty { s with disp := Display.blank }))

/-- Phase 2 of `DRW` (R131): each destination in turn is toggled; the flag says whether one of them was on. -/
def blit : List Pixel → Display × Bool → Display × Bool
  | [], dh => dh
  | p :: ps, (d, hit) => blit ps (d.toggle p, hit || d.get p)

/-- The commit of a `DRW` whose phase 1 found the destinations `ps` (R131): it cannot fail. -/
def commitDraw (ps : List Pixel) (s : State) : State :=
  let (d, hit) := blit ps (s.disp, false)
  advance (markDirty (writeV { s with disp := d } vf (collisionFlag hit)))

/-- The state after `DRW`: the commit, or the fault with nothing else changed (R131, R176). -/
def drawSprite (x y : RegIx) (n : Fin 16) (s : State) : State :=
  match scanSprite s x y n with
  | .ok ps => commitDraw ps s
  | .error c => raise c s

/-- `DRW Vx, Vy, n` (R131), `n = 0` included: no row is read and nothing is checked (decision D8). -/
def execDrw (x y : RegIx) (n : Fin 16) (s : State) : Host.Outcome State Fault Refusal :=
  .next (drawSprite x y n s)

end Sys2Proof.Machine
end

