-- ==== Sys2Proof/Machine/RegisterImmediate.lean ====
section
/-! DEFINITION. Register-immediate instructions: `LD Vx`, `ADD Vx`, `LD I` (spec/41_register_immediate.md). -/

namespace Sys2Proof.Machine

/-- `LD Vx, nn` (R110). -/
def execLdVx (x : RegIx) (nn : Byte) (s : State) : Host.Outcome State Fault Refusal :=
  .next (advance (writeV s x nn))

/-- `ADD Vx, nn` (R111): the sum modulo 256, and no carry anywhere. -/
def execAddVx (x : RegIx) (nn : Byte) (s : State) : Host.Outcome State Fault Refusal :=
  .next (advance (writeV s x (readV s x + nn)))

/-- `LD I, nnn` (R112): the address is loaded, not checked, and nothing is read from memory. -/
def execLdI (nnn : Addr) (s : State) : Host.Outcome State Fault Refusal :=
  .next (advance { s with i := zext16 nnn })

end Sys2Proof.Machine
end

