-- ==== Sys2Proof/Machine/Unexecuted.lean ====
section
/-! DEFINITION. The unexecuted rows `UNX0` to `UNXF` (spec/43_unexecuted.md): no-operations that advance `pc` by 2
(R87, R150). The 12 low bits are ignored, and the historical meanings are not given to them (R4). -/

namespace Sys2Proof.Machine

/-- The common rule R150: only `pc` changes. -/
def noOperation (s : State) : State := advance s

/-- `UNX0 nnn` (R151): every word of class 0 but `0x00E0`; it clears nothing and does not return. -/
def execUnx0 (_nnn : Addr) (s : State) : Host.Outcome State Fault Refusal :=
  .next (noOperation s)

/-- `UNX2 nnn` (R152): it does not call and does not touch `sp`. -/
def execUnx2 (_nnn : Addr) (s : State) : Host.Outcome State Fault Refusal :=
  .next (noOperation s)

/-- `UNX3 nnn` (R153): it never skips. -/
def execUnx3 (_nnn : Addr) (s : State) : Host.Outcome State Fault Refusal :=
  .next (noOperation s)

/-- `UNX4 nnn` (R154): it never skips. -/
def execUnx4 (_nnn : Addr) (s : State) : Host.Outcome State Fault Refusal :=
  .next (noOperation s)

/-- `UNX5 nnn` (R155): it never skips. -/
def execUnx5 (_nnn : Addr) (s : State) : Host.Outcome State Fault Refusal :=
  .next (noOperation s)

/-- `UNX8 nnn` (R156): no register is copied, combined or shifted, and VF is not written. -/
def execUnx8 (_nnn : Addr) (s : State) : Host.Outcome State Fault Refusal :=
  .next (noOperation s)

/-- `UNX9 nnn` (R157): it never skips. -/
def execUnx9 (_nnn : Addr) (s : State) : Host.Outcome State Fault Refusal :=
  .next (noOperation s)

/-- `UNXB nnn` (R158): a class the document does not name, hence unrecognised; it does not jump. -/
def execUnxB (_nnn : Addr) (s : State) : Host.Outcome State Fault Refusal :=
  .next (noOperation s)

/-- `UNXC nnn` (R159): a class the document does not name, hence unrecognised; nothing is random. -/
def execUnxC (_nnn : Addr) (s : State) : Host.Outcome State Fault Refusal :=
  .next (noOperation s)

/-- `UNXE nnn` (R160): it never skips and reads no key. -/
def execUnxE (_nnn : Addr) (s : State) : Host.Outcome State Fault Refusal :=
  .next (noOperation s)

/-- `UNXF nnn` (R161): no timer, no store, `I` unchanged, no wait. -/
def execUnxF (_nnn : Addr) (s : State) : Host.Outcome State Fault Refusal :=
  .next (noOperation s)

end Sys2Proof.Machine
end

