-- ==== Sys2Proof/Machine/Dispatch.lean ====
section
/-! DEFINITION. What each instruction does: one arm per row of spec/opcode_table.json. -/

namespace Sys2Proof.Machine

def exec (i : Instr) (s : State) : Host.Outcome State Fault Refusal :=
  match i with
  | .cls => Sys2Proof.Machine.execCls s
  | .unx0 nnn => Sys2Proof.Machine.execUnx0 nnn s
  | .jp nnn => Sys2Proof.Machine.execJp nnn s
  | .unx2 nnn => Sys2Proof.Machine.execUnx2 nnn s
  | .unx3 nnn => Sys2Proof.Machine.execUnx3 nnn s
  | .unx4 nnn => Sys2Proof.Machine.execUnx4 nnn s
  | .unx5 nnn => Sys2Proof.Machine.execUnx5 nnn s
  | .ldVx x nn => Sys2Proof.Machine.execLdVx x nn s
  | .addVx x nn => Sys2Proof.Machine.execAddVx x nn s
  | .unx8 nnn => Sys2Proof.Machine.execUnx8 nnn s
  | .unx9 nnn => Sys2Proof.Machine.execUnx9 nnn s
  | .ldI nnn => Sys2Proof.Machine.execLdI nnn s
  | .unxB nnn => Sys2Proof.Machine.execUnxB nnn s
  | .unxC nnn => Sys2Proof.Machine.execUnxC nnn s
  | .drw x y n => Sys2Proof.Machine.execDrw x y n s
  | .unxE nnn => Sys2Proof.Machine.execUnxE nnn s
  | .unxF nnn => Sys2Proof.Machine.execUnxF nnn s

end Sys2Proof.Machine
end

