-- ==== Sys2Proof/Machine/Step.lean ====
section
/-! DEFINITION. One `Tick`: one cycle (R88 of spec/30_encoding.md), and the placing of one instruction for the host. -/

namespace Sys2Proof.Machine

/-- One cycle (R88, R170): nothing when the machine is not running, the halt, the fetch's fault, or the instruction.
A halt and a fault are states the machine goes to, so every tick answers a next state. -/
def step (s : State) : Host.Outcome State Fault Refusal :=
  match fetchStage s with
  | .inert => .next s
  | .pastEnd => .next (halt s)
  | .raised c => .next (raise c s)
  | .word w => exec (decode w) s

/-- The state with the instruction word `w` (of which `nbits` bits are given, the rest 0) where `step` fetches next:
its two bytes at `pc`, high byte first (R80). The fetch needs a running machine with `pc` at most `0xFFE` (R88), so a
stopped machine is set running, and a `pc` beyond `0xFFE` is set to the entry point `0x200` (R205). It stands for the
load of a program from outside: notes/assumptions/12.md. -/
def State.withFetchWord (s : State) (nbits w : Nat) : State :=
  let pc : Word := if s.pc.toNat ≤ 0xFFE then s.pc else 0x0200
  { s with
    mem := memWrite s.mem pc.toNat (bytesOfWord (BitVec.ofNat 16 (w % 2 ^ nbits)))
    pc := pc
    runState := .running }

end Sys2Proof.Machine
end

