-- ==== Sys2Proof/Machine/HostInterface.lean ====
section
/-! DEFINITION. What the host may do to the machine and read of it (R39 of spec/10_state.md, R200 to R209 and R216 of
spec/70_reset_and_hazards.md). The host acts between cycles only (R64). -/

namespace Sys2Proof.Machine

/-- `LoadROM(bytes)` (R206 to R208): the whole image from `0x200` upward and nothing else, or, for an image longer
than 3584 bytes, a refusal of the whole with the machine unchanged (decision D13). -/
def loadROM (image : List Byte) (s : State) : Option State :=
  if image.length ≤ Config.romMax then some { s with mem := memWrite s.mem Config.progBase image } else none

/-- `AckDisplay` (R35, R39): `draw_dirty <- 0`, nothing else, in any run state (R182). -/
def ackDisplay (s : State) : State := { s with drawDirty := false }

/-- The transactions that change the machine (R39). -/
inductive Transaction where
  | reset
  | loadROM (image : List Byte)
  | tick
  | ackDisplay
  deriving DecidableEq, Repr

/-- What a transaction does (R39). `Reset` may be applied at any time and nothing survives it (R200). When a host may
issue which transaction is `Protocol` of Safety.lean. -/
def transact (t : Transaction) (s : State) : Host.Outcome State Fault Refusal :=
  match t with
  | .reset => .next State.reset
  | .loadROM image =>
    match loadROM image s with
    | some s' => .next s'
    | none => .refused (.imageTooLong image.length)
  | .tick => step s
  | .ackDisplay => .next (ackDisplay s)

/-- Element `k` of the display as the host's linear array of 2048 cells: cell `(x, y)` is element `y * 64 + x` (R33,
decision D23). -/
def displayLinear (s : State) (k : Fin 2048) : Bool :=
  s.disp.get (⟨k.val % 64, Nat.mod_lt _ (by decide)⟩, ⟨k.val / 64, by omega⟩)

/-- What the host reads between cycles: the whole display, `draw_dirty` and `run_state` (R36, R39). -/
structure HostView where
  disp : Display
  drawDirty : Bool
  runState : RunState
  deriving DecidableEq, Repr

/-- The host's reads (R36, R39); they have no effect on the state. -/
def hostView (s : State) : HostView := ⟨s.disp, s.drawDirty, s.runState⟩

/-- The event a model may emit for a completed cycle (R184): `pc` at its start, the word and the mnemonic. It is no
state, and no rule depends on it. -/
structure TraceEvent where
  pc : Word
  word : Word
  mnemonic : String
  deriving DecidableEq, Repr

/-- The trace event of the cycle that starts in `s`, when that cycle completes (R170, R184). -/
def traceEvent (s : State) : Option TraceEvent :=
  match fetchStage s, step s with
  | .word w, .next t => if t.runState = .running then some ⟨s.pc, w, (decode w).mnemonic⟩ else none
  | _, _ => none

end Sys2Proof.Machine
end

