-- ==== Sys2Proof/Safety.lean ====
section
/-! DEFINITION. What counts as a legal state, a legal host and a safe run, in the terms the claims use. -/

namespace Sys2Proof

open Machine

/-- What `run_state` may hold beside a given `pc`. A halted machine has `pc = 0x1000` (R27, R171). An address fault
reports `0x1000` (R173). A draw fault reports a pair with `x` at most 262 and `y` at most 269, at least one of them
outside the grid (R172), and stopped at an instruction that could be fetched (R176). -/
def LegalRunState (pc : Word) : RunState → Prop
  | .running => True
  | .halted => pc = 0x1000
  | .faulted (.addressOutOfRange a) => a = 0x1000 ∧ pc.toNat ≤ 0xFFF
  | .faulted (.drawOutOfRange x y) => x ≤ 262 ∧ y ≤ 269 ∧ (63 < x ∨ 31 < y) ∧ pc.toNat ≤ 0xFFE

/-- The states the machine can be in: memory canonical, `I` and `pc` in the range their rules give (R27, R30), `sp`
at its reset value (R31), `run_state` legal beside `pc`. Display cells are 0 or 1 by their type (R34). -/
structure Legal (s : State) : Prop where
  mem_wf : s.mem.wf = true
  i_range : s.i.toNat ≤ 0xFFF
  pc_range : s.pc.toNat ≤ 0x1000
  sp_reset : s.sp = Config.spReset
  run_state : LegalRunState s.pc s.runState

/-- Where a host stands in the boot order of R209. -/
inductive BootPhase where
  /-- Nothing yet: a host applies `Reset` first (R216). -/
  | beforeReset
  /-- After `Reset`: one load may follow (R39). -/
  | fresh
  /-- An image was loaded or a tick was given: no further load until the next `Reset` (R208, R216). -/
  | started
  /-- The image was refused: the host must not tick (R207). That it may not load again either is the model's choice
  (DESIGN CHOICE, notes/assumptions/19.md). -/
  | imageRefused
  deriving DecidableEq, Repr

/-- The phase after a transaction, or none where R39, R207 and R216 do not let the host issue it. A tick before any
load is allowed (R209). DESIGN CHOICE (notes/assumptions/19.md, unsafe): a refused load counts as the one load of its
reset, so none may follow it until the next `Reset`; the spec says "once" and forbids only the tick after a refusal. -/
def BootPhase.after : BootPhase → Transaction → Option BootPhase
  | _, .reset => some .fresh
  | .beforeReset, .loadROM _ => none
  | .beforeReset, .tick => none
  | .beforeReset, .ackDisplay => none
  | .fresh, .loadROM image => some (if image.length ≤ Config.romMax then .started else .imageRefused)
  | .fresh, .tick => some .started
  | .fresh, .ackDisplay => some .fresh
  | .started, .loadROM _ => none
  | .started, .tick => some .started
  | .started, .ackDisplay => some .started
  | .imageRefused, .loadROM _ => none
  | .imageRefused, .tick => none
  | .imageRefused, .ackDisplay => some .imageRefused

/-- The host keeps the boot order of R209 and the duties of R216 along `ts`. -/
def Protocol : BootPhase → List Transaction → Bool
  | _, [] => true
  | p, t :: ts =>
    match p.after t with
    | some q => Protocol q ts
    | none => false

/-- The machine after the transactions `ts`; a refused load leaves it as it was (R207). -/
def hostRun : List Transaction → State → State
  | [], s => s
  | t :: ts, s =>
    match transact t s with
    | .next s' => hostRun ts s'
    | .fault _ => hostRun ts s
    | .refused _ => hostRun ts s

/-- The launch premise of R209: reset, then one accepted load. -/
def launch (image : List Byte) : Option State := loadROM image State.reset

/-- The machine has not faulted: a run is safe while this holds (R172, R215). A halt is a successful end (R171). -/
def NotFaulted (s : State) : Prop := ∀ c, s.runState ≠ .faulted c

/-! Terms of the frame statements: what is unchanged from `s` to `t`, through the machine's own reads. -/

/-- Every byte of memory reads as before, and every address out of range raises as before. -/
def SameMemory (s t : State) : Prop := ∀ a, readByte t.mem a = readByte s.mem a

/-- Every general register reads as before. -/
def SameRegisters (s t : State) : Prop := ∀ r, readV t r = readV s r

/-- Every general register but `x` reads as before. -/
def SameRegistersBut (x : RegIx) (s t : State) : Prop := ∀ r, r ≠ x → readV t r = readV s r

/-- Every display cell is as before. -/
def SameDisplay (s t : State) : Prop := ∀ p, t.disp.get p = s.disp.get p

/-! Terms of the statements about `DRW`, in the words of R131 and not in those of the blitter. -/

/-- Bit `7 - c` of sprite byte `Mem[I + r]` is 1: the bit of row `r` at column offset `c` (R56, R131). -/
def SpriteBitSet (s : State) (r c : Nat) : Prop :=
  ∃ b, readByte s.mem (s.i.toNat + r) = .ok b ∧ b.getLsbD (7 - c) = true

/-- Cell `p` is the destination `(V[X] + c, V[Y] + r)` of a set bit of the sprite's `n` rows (R131). -/
def UnderSetBit (s : State) (x y : RegIx) (n : Fin 16) (p : Pixel) : Prop :=
  ∃ r c, r < n.val ∧ c < 8 ∧ SpriteBitSet s r c ∧
    p.1.val = (readV s x).toNat + c ∧ p.2.val = (readV s y).toNat + r

/-- Row `r` raises nothing: its byte's address is in range, and its set bits have their destinations in the grid
(R131, R177). -/
def RowDrawable (s : State) (x y : RegIx) (r : Nat) : Prop :=
  s.i.toNat + r ≤ 0xFFF ∧
    ∀ c, c < 8 → SpriteBitSet s r c → (readV s x).toNat + c ≤ 63 ∧ (readV s y).toNat + r ≤ 31

/-- All of the sprite's `n` rows raise nothing. -/
def Drawable (s : State) (x y : RegIx) (n : Fin 16) : Prop := ∀ r, r < n.val → RowDrawable s x y r

end Sys2Proof
end

