-- ==== Sys2Proof/Certificates/Slice0/Obligations.lean ====
section
/-! DEFINITION. The statements for the provers, each in the terms of the model and of Safety.lean. A docstring names
the sentence of spec/ a statement formalises, and the decision of the spec it rests on where it rests on one. -/

open Sys2Proof Sys2Proof.Machine

/-! Encoding and decoding. -/

/-- Every well-formed instruction is read back from its word, and from its two bytes in memory order with any bytes
behind them (R80, R83, R85, R92). -/
def Obligations.DecodeOfEncodeIsTheInstruction : Prop :=
  ∀ i, WellFormed i → decode (encode i) = i ∧ ∀ rest, decodeBytes (bytesOfWord (encode i) ++ rest) = .ok (i, rest)

/-- "all 65536 words appear in exactly one line" (R85): a word decodes to a well-formed instruction whose word it is,
and to the only one. -/
def Obligations.EveryWordIsTheWordOfExactlyOneInstruction : Prop :=
  ∀ w, WellFormed (decode w) ∧ encode (decode w) = w ∧ ∀ i, WellFormed i → encode i = w → i = decode w

/-- The opcode map of R85, line by line; in class 0 the test is on the whole word. -/
def Obligations.DecodeFollowsTheOpcodeMap : Prop :=
  ∀ w : Word,
    (w = 0x00E0 → decode w = .cls) ∧
    (w ≠ 0x00E0 → w.toNat / 4096 = 0x0 → decode w = .unx0 (fieldNNN w)) ∧
    (w.toNat / 4096 = 0x1 → decode w = .jp (fieldNNN w)) ∧
    (w.toNat / 4096 = 0x2 → decode w = .unx2 (fieldNNN w)) ∧
    (w.toNat / 4096 = 0x3 → decode w = .unx3 (fieldNNN w)) ∧
    (w.toNat / 4096 = 0x4 → decode w = .unx4 (fieldNNN w)) ∧
    (w.toNat / 4096 = 0x5 → decode w = .unx5 (fieldNNN w)) ∧
    (w.toNat / 4096 = 0x6 → decode w = .ldVx (fieldX w) (fieldNN w)) ∧
    (w.toNat / 4096 = 0x7 → decode w = .addVx (fieldX w) (fieldNN w)) ∧
    (w.toNat / 4096 = 0x8 → decode w = .unx8 (fieldNNN w)) ∧
    (w.toNat / 4096 = 0x9 → decode w = .unx9 (fieldNNN w)) ∧
    (w.toNat / 4096 = 0xA → decode w = .ldI (fieldNNN w)) ∧
    (w.toNat / 4096 = 0xB → decode w = .unxB (fieldNNN w)) ∧
    (w.toNat / 4096 = 0xC → decode w = .unxC (fieldNNN w)) ∧
    (w.toNat / 4096 = 0xD → decode w = .drw (fieldX w) (fieldY w) (fieldN w)) ∧
    (w.toNat / 4096 = 0xE → decode w = .unxE (fieldNNN w)) ∧
    (w.toNat / 4096 = 0xF → decode w = .unxF (fieldNNN w))

/-- The six fields of R82 as numbers, and `NN = Y * 16 + N`, `NNN = X * 256 + NN`. -/
def Obligations.FieldsAreTheBitFieldsOfTheWord : Prop :=
  ∀ w : Word,
    (fieldCls w).val = w.toNat / 4096 ∧
    (fieldX w).val = w.toNat / 256 % 16 ∧
    (fieldY w).val = w.toNat / 16 % 16 ∧
    (fieldN w).val = w.toNat % 16 ∧
    (fieldNN w).toNat = w.toNat % 256 ∧
    (fieldNNN w).toNat = w.toNat % 4096 ∧
    (fieldNN w).toNat = (fieldY w).val * 16 + (fieldN w).val ∧
    (fieldNNN w).toNat = (fieldX w).val * 256 + (fieldNN w).toNat

/-- Words of every family, and what they select (spec/95_test_vectors.md, table V1). A sanity statement. -/
def Obligations.WordsOfTableV1Decode : Prop :=
  decode 0x00E0 = .cls ∧ decode 0x00EE = .unx0 0x0EE ∧ decode 0x0000 = .unx0 0x000 ∧ decode 0x01E0 = .unx0 0x1E0 ∧
  decode 0xE000 = .unxE 0x000 ∧ decode 0x1206 = .jp 0x206 ∧ decode 0x6A3C = .ldVx 10 0x3C ∧
  decode 0x7FFA = .addVx 15 0xFA ∧ decode 0xA20C = .ldI 0x20C ∧ decode 0xD5A7 = .drw 5 10 7 ∧
  decode 0xB300 = .unxB 0x300 ∧ decode 0xC0FF = .unxC 0x0FF ∧ decode 0xFFFF = .unxF 0xFFF

/-- Decoding is total on bytes: fewer than two are rejected by name, and two always decode, high byte first, whatever
lies behind them (R80, R81, R87). -/
def Obligations.DecodeOfBytesIsTotal : Prop :=
  decodeBytes [] = .error .noBytes ∧
  (∀ b, decodeBytes [b] = .error .oneByte) ∧
  ∀ hi lo rest, ∃ w : Word, w.toNat = hi.toNat * 256 + lo.toNat ∧ decodeBytes (hi :: lo :: rest) = .ok (decode w, rest)

/-! Memory, fetch and the cycle. -/

/-- `MemRead` (R53): the bytes, lowest address first, or the lowest address above `0xFFF`, without wrapping. The range
check is the spec's decisions D3 and D4. -/
def Obligations.MemReadReturnsTheBytesOrTheLowestBadAddress : Prop :=
  ∀ m a n, 1 ≤ n →
    (a + n ≤ 0x1000 → ∃ bs, memRead m a n = .ok bs ∧ bs.length = n ∧
      ∀ k (h : k < bs.length), readByte m (a + k) = .ok bs[k]) ∧
    (0x1000 < a + n → memRead m a n = .error (.addressOutOfRange (max a 0x1000)))

/-- Two canonical memories that read alike at every address are equal: the canonical form is the model's own
(notes/assumptions/2.md), and the statement says that it holds nothing but the bytes of R50. -/
def Obligations.CanonicalMemoriesThatReadAlikeAreEqual : Prop :=
  ∀ m m' : Memory, m.wf = true → m'.wf = true → (∀ a, readByte m a = readByte m' a) → m = m'

/-- R80 and R55: the word of a cycle is the two bytes at `pc` and `pc + 1`, the high-order byte at the lower address. That
this holds at an odd `pc` as at an even one is R26 and R57, the spec's decision D15 (notes/assumptions/13.md: a DESIGN
CHOICE, unsafe for odd addresses). -/
def Obligations.FetchReadsTwoBytesHighFirst : Prop :=
  ∀ s : State, s.runState = .running → s.pc.toNat ≤ 0xFFE →
    ∃ hi lo w, readByte s.mem s.pc.toNat = .ok hi ∧ readByte s.mem (s.pc.toNat + 1) = .ok lo ∧
      w.toNat = hi.toNat * 256 + lo.toNat ∧ fetchStage s = .word w

/-- A step runs the decoded instruction (R88): when the machine runs and the two bytes at `pc` decode to `i`, the step
is `exec i`; nothing is added around it, since each instruction makes its own `pc` update (R89). -/
def Obligations.StepRunsTheDecodedInstruction : Prop :=
  ∀ (s : State) (hi lo : Byte) (i : Instr), s.runState = .running →
    readByte s.mem s.pc.toNat = .ok hi → readByte s.mem (s.pc.toNat + 1) = .ok lo →
    decodeBytes [hi, lo] = .ok (i, []) → step s = exec i s

/-- R171, with the spec's decisions D2 and D24: a running machine's tick halts it exactly when `pc >= 0x1000`, and
then changes nothing but the run state. -/
def Obligations.HaltExactlyWhenPcIsPastTheEnd : Prop :=
  ∀ s : State, s.runState = .running →
    ((∃ t, step s = .next t ∧ t.runState = .halted) ↔ 0x1000 ≤ s.pc.toNat) ∧
    (0x1000 ≤ s.pc.toNat → step s = .next { s with runState := .halted })

/-- R66 (a) and R173, with the spec's decision D3: at `pc = 0xFFF` the fetch raises `AddressOutOfRange(0x1000)`. -/
def Obligations.FetchAtTheLastByteFaults : Prop :=
  ∀ s : State, s.runState = .running → s.pc.toNat = 0xFFF →
    step s = .next { s with runState := .faulted (.addressOutOfRange 0x1000) }

/-- R170, R171 and R176, with the spec's decision D4: a running machine's tick completes, or halts, or faults, and a
halt or a fault changes nothing but the run state. -/
def Obligations.TickCompletesHaltsOrFaultsPrecisely : Prop :=
  ∀ s : State, s.runState = .running → ∃ t, step s = .next t ∧
    (t.runState = .running ∨ t = { s with runState := .halted } ∨
      ∃ c, t = { s with runState := .faulted c })

/-- R182 and R178, with the spec's decision D18: a stopped machine ignores ticks, however many; an acknowledgement
still clears `draw_dirty`. -/
def Obligations.StoppedMachineIgnoresTicks : Prop :=
  ∀ (ts : List Transaction) (s : State), s.runState ≠ .running → (∀ t ∈ ts, t = .tick ∨ t = .ackDisplay) →
    hostRun ts s = if .ackDisplay ∈ ts then { s with drawDirty := false } else s

/-- R172, last paragraph, and R179: a running machine faults only from the fetch at `pc = 0xFFF` or from a `DRW`. The
causes are the spec's decision D4. -/
def Obligations.OnlyDrawAndTheLastByteFault : Prop :=
  ∀ (s t : State) (c : Cause), s.runState = .running → step s = .next t → t.runState = .faulted c →
    (s.pc.toNat = 0xFFF ∧ c = .addressOutOfRange 0x1000) ∨
    ∃ hi lo x y n, readByte s.mem s.pc.toNat = .ok hi ∧ readByte s.mem (s.pc.toNat + 1) = .ok lo ∧
      decode (wordOfBytes [hi, lo]) = .drw x y n

/-- R172: "No other instruction can raise anything": every instruction but `DRW` leaves the run state as it is. -/
def Obligations.InstructionsOtherThanDrawRaiseNothing : Prop :=
  ∀ (i : Instr) (s : State), (∀ x y n, i ≠ .drw x y n) → ∃ t, exec i s = .next t ∧ t.runState = s.runState

/-- R89: `pc` after a completed instruction is `NNN` for `JP` and `pc + 2` modulo `2^16` for every other; a tick that
halts or raises leaves it. -/
def Obligations.ProgramCounterIsUpdatedOncePerCycle : Prop :=
  (∀ (i : Instr) (s t : State), s.runState = .running → exec i s = .next t → t.runState = .running →
    (∀ nnn, i = .jp nnn → t.pc.toNat = nnn.toNat) ∧
    ((∀ nnn, i ≠ .jp nnn) → t.pc.toNat = (s.pc.toNat + 2) % 65536)) ∧
  ∀ s t : State, step s = .next t → t.runState ≠ .running → t.pc = s.pc

/-- R215: "the next `pc` is a function of the current `pc`" and of memory alone: registers, `I`, the display and the
flags have no influence on it. -/
def Obligations.NextPcDependsOnPcAndMemoryAlone : Prop :=
  ∀ s s' t t' : State, s.runState = .running → s'.runState = .running → s.pc = s'.pc → s.mem = s'.mem →
    step s = .next t → step s' = .next t' → t.runState = .running → t'.runState = .running → t.pc = t'.pc

/-! What the executed instructions do, with their frames. -/

/-- R100: the word `0x1000 + NNN` is `JP`, which sets `pc` to its operand, unchecked, and changes nothing else. The last
clause, that a target of `0xFFF` makes the next cycle raise and what state the fault leaves, rests on R66 and R176, the
spec's decisions D3 (notes/assumptions/7.md) and D4 (notes/assumptions/6.md), each a DESIGN CHOICE. -/
def Obligations.JumpSetsPcToItsOperand : Prop :=
  ∀ (nnn : Addr) (s : State), (∀ w : Word, w.toNat = 0x1000 + nnn.toNat → decode w = .jp nnn) ∧ ∃ t, exec (.jp nnn) s = .next t ∧
    t.pc.toNat = nnn.toNat ∧ SameRegisters s t ∧ t.i = s.i ∧ t.sp = s.sp ∧ SameDisplay s t ∧
    t.drawDirty = s.drawDirty ∧ t.runState = s.runState ∧ SameMemory s t ∧
    (s.runState = .running → nnn = 0xFFF → step t = .next { t with runState := .faulted (.addressOutOfRange 0x1000) })

/-- R100, corner case (b): a `JP` to its own address leaves the whole state as it is. -/
def Obligations.JumpToSelfChangesNothing : Prop :=
  ∀ (s : State) (hi lo : Byte) (nnn : Addr), s.runState = .running →
    readByte s.mem s.pc.toNat = .ok hi → readByte s.mem (s.pc.toNat + 1) = .ok lo →
    decodeBytes [hi, lo] = .ok (.jp nnn, []) → nnn.toNat = s.pc.toNat → step s = .next s

/-- R110: the word `0x6000 + X * 256 + NN` is `LD Vx`, which writes the immediate, VF included as a plain destination,
and changes nothing else but `pc`. -/
def Obligations.LoadImmediateWritesTheRegister : Prop :=
  ∀ (x : RegIx) (nn : Byte) (s : State),
    (∀ w : Word, w.toNat = 0x6000 + x.val * 256 + nn.toNat → decode w = .ldVx x nn) ∧ ∃ t, exec (.ldVx x nn) s = .next t ∧
    readV t x = nn ∧ SameRegistersBut x s t ∧ t.pc.toNat = (s.pc.toNat + 2) % 65536 ∧
    t.i = s.i ∧ t.sp = s.sp ∧ SameDisplay s t ∧ t.drawDirty = s.drawDirty ∧ t.runState = s.runState ∧ SameMemory s t

/-- R111: the word `0x7000 + X * 256 + NN` is `ADD Vx`, which keeps the low 8 bits of the sum and changes no flag: every
other register, VF among them unless it is the destination, is unchanged. -/
def Obligations.AddImmediateWrapsAndSetsNoFlag : Prop :=
  ∀ (x : RegIx) (nn : Byte) (s : State),
    (∀ w : Word, w.toNat = 0x7000 + x.val * 256 + nn.toNat → decode w = .addVx x nn) ∧ ∃ t, exec (.addVx x nn) s = .next t ∧
    (readV t x).toNat = ((readV s x).toNat + nn.toNat) % 256 ∧ SameRegistersBut x s t ∧
    t.pc.toNat = (s.pc.toNat + 2) % 65536 ∧
    t.i = s.i ∧ t.sp = s.sp ∧ SameDisplay s t ∧ t.drawDirty = s.drawDirty ∧ t.runState = s.runState ∧ SameMemory s t

/-- R112: the word `0xA000 + NNN` is `LD I`, which writes the zero-extended 12-bit immediate and changes nothing else
but `pc`. -/
def Obligations.LoadIndexWritesTheZeroExtendedAddress : Prop :=
  ∀ (nnn : Addr) (s : State), (∀ w : Word, w.toNat = 0xA000 + nnn.toNat → decode w = .ldI nnn) ∧ ∃ t, exec (.ldI nnn) s = .next t ∧
    t.i.toNat = nnn.toNat ∧ SameRegisters s t ∧ t.pc.toNat = (s.pc.toNat + 2) % 65536 ∧
    t.sp = s.sp ∧ SameDisplay s t ∧ t.drawDirty = s.drawDirty ∧ t.runState = s.runState ∧ SameMemory s t

/-- R130: `CLS` clears every cell and raises `draw_dirty` (the spec's decision D10), and changes nothing else but
`pc`, which advances: `CLS` does not jump. -/
def Obligations.ClearDisplayZeroesEveryCell : Prop :=
  ∀ s : State, ∃ t, exec .cls s = .next t ∧
    (∀ p, t.disp.get p = false) ∧ t.drawDirty = true ∧ t.pc.toNat = (s.pc.toNat + 2) % 65536 ∧
    SameRegisters s t ∧ t.i = s.i ∧ t.sp = s.sp ∧ t.runState = s.runState ∧ SameMemory s t

/-- R150: each of the eleven unexecuted instructions, named here, changes no state except `pc`, which advances by 2. -/
def Obligations.UnexecutedInstructionsOnlyAdvancePc : Prop :=
  ∀ (nnn : Addr) (s : State) (i : Instr),
    i ∈ [.unx0 nnn, .unx2 nnn, .unx3 nnn, .unx4 nnn, .unx5 nnn, .unx8 nnn, .unx9 nnn, .unxB nnn, .unxC nnn, .unxE nnn,
      .unxF nnn] →
    ∃ t, exec i s = .next t ∧ t.pc.toNat = (s.pc.toNat + 2) % 65536 ∧
      SameRegisters s t ∧ t.i = s.i ∧ t.sp = s.sp ∧ SameDisplay s t ∧ t.drawDirty = s.drawDirty ∧
      t.runState = s.runState ∧ SameMemory s t

/-- R87 and R179, from the words: a word of none of the six patterns is a no-operation that advances `pc` by 2; it is
never an exception. -/
def Obligations.EveryOtherWordIsANoOperation : Prop :=
  ∀ (w : Word) (s : State), w ≠ 0x00E0 →
    w.toNat / 4096 ≠ 0x1 → w.toNat / 4096 ≠ 0x6 → w.toNat / 4096 ≠ 0x7 → w.toNat / 4096 ≠ 0xA → w.toNat / 4096 ≠ 0xD →
    exec (decode w) s = .next { s with pc := s.pc + 2 }

/-! `DRW`. -/

/-- R131, with the spec's decisions D6 to D9: a `DRW` whose rows are all drawable completes. Exactly the cells under a
set sprite bit are toggled; VF is 1 when one of them was on before and 0 otherwise, whatever VF was; `draw_dirty` is
raised; `pc` advances; all else is unchanged. `n = 0`, an origin outside the grid under a blank sprite, and VF as a
coordinate are among the cases. -/
def Obligations.DrawTogglesTheCellsUnderSetBits : Prop :=
  ∀ (x y : RegIx) (n : Fin 16) (s : State), Drawable s x y n → ∃ t, exec (.drw x y n) s = .next t ∧
    (∀ p, UnderSetBit s x y n p → t.disp.get p = !s.disp.get p) ∧
    (∀ p, ¬ UnderSetBit s x y n p → t.disp.get p = s.disp.get p) ∧
    ((∃ p, UnderSetBit s x y n p ∧ s.disp.get p = true) → readV t vf = 0x01) ∧
    ((∀ p, UnderSetBit s x y n p → s.disp.get p = false) → readV t vf = 0x00) ∧
    SameRegistersBut vf s t ∧ t.drawDirty = true ∧ t.pc.toNat = (s.pc.toNat + 2) % 65536 ∧
    t.i = s.i ∧ t.sp = s.sp ∧ t.runState = s.runState ∧ SameMemory s t

/-- R131 corner case (d), the spec's decision D8: `n = 0` draws nothing, checks nothing, clears VF and raises
`draw_dirty`, in every state. -/
def Obligations.DrawOfZeroRowsClearsVfAndDrawsNothing : Prop :=
  ∀ (x y : RegIx) (s : State), ∃ t, exec (.drw x y 0) s = .next t ∧
    SameDisplay s t ∧ readV t vf = 0x00 ∧ SameRegistersBut vf s t ∧ t.drawDirty = true ∧
    t.pc.toNat = (s.pc.toNat + 2) % 65536 ∧ t.i = s.i ∧ t.sp = s.sp ∧ t.runState = s.runState ∧ SameMemory s t

/-- R173 (b) and R177, with the spec's decisions D3, D4 and D7: the first row that is not drawable has its address
above `0xFFF`: the `DRW` raises `AddressOutOfRange` with that address and changes nothing but the run state. -/
def Obligations.DrawRaisesTheFirstBadAddress : Prop :=
  ∀ (x y : RegIx) (n : Fin 16) (s : State) (r : Nat), r < n.val → (∀ q, q < r → RowDrawable s x y q) →
    0xFFF < s.i.toNat + r →
    exec (.drw x y n) s = .next { s with runState := .faulted (.addressOutOfRange (s.i.toNat + r)) }

/-- R174 and R177, with the spec's decisions D4, D6 and D7: in the first row that is not drawable, whose address is in
range, the set bit at the lowest column offset `c` with its destination outside the grid is what the `DRW` raises
`DrawOutOfRange` for, with the pair `(V[X] + c, V[Y] + r)`; nothing but the run state changes. -/
def Obligations.DrawRaisesTheFirstBadCoordinate : Prop :=
  ∀ (x y : RegIx) (n : Fin 16) (s : State) (r c : Nat), r < n.val → c < 8 → (∀ q, q < r → RowDrawable s x y q) →
    SpriteBitSet s r c → (63 < (readV s x).toNat + c ∨ 31 < (readV s y).toNat + r) →
    (∀ b, b < c → SpriteBitSet s r b → (readV s x).toNat + b ≤ 63 ∧ (readV s y).toNat + r ≤ 31) →
    exec (.drw x y n) s =
      .next { s with runState := .faulted (.drawOutOfRange ((readV s x).toNat + c) ((readV s y).toNat + r)) }

/-- R131 and R172, with the spec's decisions D4 and D6: a `DRW` of a running machine raises exactly when one of its
rows is not drawable. -/
def Obligations.DrawFaultsExactlyWhenARowIsNotDrawable : Prop :=
  ∀ (x y : RegIx) (n : Fin 16) (s : State), s.runState = .running →
    ((∃ t c, exec (.drw x y n) s = .next t ∧ t.runState = .faulted c) ↔ ¬ Drawable s x y n)

/-- R132: drawing is an involution. The second of two draws in a row, with the same origin, restores the display; the
first reports a collision exactly when a cell under a set bit was on, the second exactly when one was off. The premise
on the origin is needed only when X or Y is 15: by the spec's decision D9 (notes/assumptions/9.md) a draw reads its
origin from VF before it clears it. `Drawable` rests on D6 (notes/assumptions/8.md: every set bit inside the grid, no
clipping) and D8 (notes/assumptions/9.md: zero rows draw nothing). All are marked DESIGN CHOICE. -/
def Obligations.DrawingTwiceRestoresTheDisplay : Prop :=
  ∀ (x y : RegIx) (n : Fin 16) (s : State), Drawable s x y n → ∃ t, exec (.drw x y n) s = .next t ∧
    (readV t vf = 0x01 ↔ ∃ p, UnderSetBit s x y n p ∧ s.disp.get p = true) ∧
    (readV t x = readV s x → readV t y = readV s y → ∃ u, exec (.drw x y n) t = .next u ∧ SameDisplay s u ∧
      (readV u vf = 0x01 ↔ ∃ p, UnderSetBit s x y n p ∧ s.disp.get p = false))

/-- R133: the cells a draw toggles are those under the set bits of the bytes at `I`, and nothing else decides them:
two draws, in any two states, with the same rows, origin and bytes toggle the same cells. With X or Y equal to 15 the
origin in `UnderSetBit` is VF before it is cleared, the spec's decision D9 (notes/assumptions/9.md). `Drawable` rests on
D6 (notes/assumptions/8.md), and completion with zero rows on D8 (notes/assumptions/9.md). All are marked DESIGN
CHOICE. -/
def Obligations.DrawnCellsDependOnTheBytesAtIAlone : Prop :=
  ∀ (x y x' y' : RegIx) (n : Fin 16) (s s' : State), Drawable s x y n → Drawable s' x' y' n →
    readV s x = readV s' x' → readV s y = readV s' y' →
    (∀ r, r < n.val → readByte s.mem (s.i.toNat + r) = readByte s'.mem (s'.i.toNat + r)) →
    ∃ t t', exec (.drw x y n) s = .next t ∧ exec (.drw x' y' n) s' = .next t' ∧
      ∀ p, (t.disp.get p ≠ s.disp.get p ↔ UnderSetBit s x y n p) ∧
        (t.disp.get p ≠ s.disp.get p ↔ t'.disp.get p ≠ s'.disp.get p)

/-! Rules about the whole machine. -/

/-- The invariant: from every legal state, reached or not, a step leads to a legal state, and it always leads to one
(R27, R30, R31, R171 to R174). -/
def Obligations.StepKeepsStatesLegal : Prop :=
  ∀ s, Legal s → ∃ t, step s = .next t ∧ Legal t

/-- The state after reset is legal. -/
def Obligations.ResetStateIsLegal : Prop := Legal State.reset

/-- Whatever the host does, in whatever order, a legal machine stays legal (R39, R200, R206, R207, R216). -/
def Obligations.HostTransactionsKeepStatesLegal : Prop :=
  ∀ (ts : List Transaction) (s : State), Legal s → Legal (hostRun ts s)

/-- R60: "No instruction in scope writes memory", and no tick does. -/
def Obligations.NoInstructionWritesMemory : Prop :=
  (∀ (i : Instr) (s t : State), exec i s = .next t → t.mem = s.mem) ∧ ∀ s t : State, step s = .next t → t.mem = s.mem

/-- R60 and R216: under a host that keeps the boot order, the accepted image stays at `0x200` upward, unchanged until
the next reset. -/
def Obligations.LoadedImageStaysUntilReset : Prop :=
  ∀ (image : List Byte) (ts : List Transaction) (s : State), image.length ≤ 3584 → .reset ∉ ts →
    Protocol .beforeReset (.reset :: .loadROM image :: ts) = true →
    ∀ k (h : k < image.length),
      readByte (hostRun (.reset :: .loadROM image :: ts) s).mem (0x200 + k) = .ok image[k]

/-- R31, with the spec's decision D19: `sp` is neither written nor read: every instruction leaves it, and a machine
that differs in `sp` alone goes to a state that differs in `sp` alone. -/
def Obligations.StackPointerIsNeitherReadNorWritten : Prop :=
  ∀ (i : Instr) (s t : State) (v : Word), exec i s = .next t →
    t.sp = s.sp ∧ exec i { s with sp := v } = .next { t with sp := v }

/-- R35, with the spec's decisions D10 and D11: no instruction clears `draw_dirty`, only `CLS` and `DRW` raise it, and
none reads it: a machine that differs in it alone goes to a state that differs at most in it. -/
def Obligations.DrawDirtyIsRaisedOnlyByDisplayInstructions : Prop :=
  ∀ (i : Instr) (s t : State) (b : Bool), exec i s = .next t →
    (t.drawDirty = s.drawDirty ∨ (t.drawDirty = true ∧ (i = .cls ∨ ∃ x y n, i = .drw x y n))) ∧
    ∃ d, exec i { s with drawDirty := b } = .next { t with drawDirty := d }

/-- R23, its column of writes: a general register changes only as the destination of `LD Vx` or `ADD Vx`, or as VF in
a `DRW`; `I` changes only in `LD I`. -/
def Obligations.OnlyTheListedInstructionsWriteARegister : Prop :=
  ∀ (i : Instr) (s t : State), exec i s = .next t →
    (∀ r, readV t r ≠ readV s r →
      (∃ nn, i = .ldVx r nn) ∨ (∃ nn, i = .addVx r nn) ∨ (r = vf ∧ ∃ x y n, i = .drw x y n)) ∧
    (t.i ≠ s.i → ∃ nnn, i = .ldI nnn)

/-- R213 (b) and R150 (d), from an even `pc`: control that reaches zero bytes slides through them to `0x1000` and halts,
one tick a word and one for the halt, with nothing else changed. The premise on an even `pc` is needed: control
at an odd one meets the fetch fault of R66 (a) at `0xFFF` instead. The halt test is the spec's decision D2 and the
halt's own tick D24, both marked DESIGN CHOICE (notes/assumptions/5.md). -/
def Obligations.ZeroMemorySlidesToTheHalt : Prop :=
  ∀ s : State, s.runState = .running → s.pc.toNat ≤ 0x1000 → s.pc.toNat % 2 = 0 →
    (∀ a, s.pc.toNat ≤ a → a ≤ 0xFFF → readByte s.mem a = .ok 0x00) →
    Host.Core.run core ((0x1000 - s.pc.toNat) / 2 + 1) s = .next { s with pc := 0x1000, runState := .halted }

/-! Reset, load and the host. -/

/-- R40 and R200 to R204: after `Reset`, from any state, every component has its reset value. The zero of V0 to VF is
the spec's decision D12, the display's value D1, `draw_dirty` D11; the font region's bytes are the open parameter FONT
(notes/assumptions/1.md) and the rest of memory is zero. -/
def Obligations.ResetGivesEveryComponentItsValue : Prop :=
  ∀ s : State, ∃ t, transact .reset s = .next t ∧
    (∀ r, readV t r = 0x00) ∧ t.i = 0x0000 ∧ t.pc = 0x0200 ∧ t.sp = 0x0FA0 ∧ (∀ p, t.disp.get p = false) ∧
    t.drawDirty = true ∧ t.runState = .running ∧
    (∀ a, a < 0x200 → readByte t.mem a = .ok (Config.fontByte a)) ∧
    ∀ a, 0x200 ≤ a → a ≤ 0xFFF → readByte t.mem a = .ok 0x00

/-- R201, with the spec's decision D14: whatever list FONT is, memory after reset holds `FONT[a]` at `a < FONT_LEN`
and `0x00` at every other address. -/
def Obligations.ResetMemoryHoldsTheFont : Prop :=
  ∀ font, Config.FontIs font → ∀ a, a ≤ 0xFFF → readByte State.reset.mem a = .ok (font.getD a 0x00)

/-- R206: an accepted image is copied whole from `0x200` upward, and nothing else is written: no other byte, no
register, no display cell. -/
def Obligations.LoadCopiesTheImageAndNothingElse : Prop :=
  ∀ (image : List Byte) (s : State), s.mem.wf = true → image.length ≤ 3584 →
    ∃ t, transact (.loadROM image) s = .next t ∧
      (∀ k (h : k < image.length), readByte t.mem (0x200 + k) = .ok image[k]) ∧
      (∀ a, a < 0x200 ∨ 0x200 + image.length ≤ a → readByte t.mem a = readByte s.mem a) ∧
      SameRegisters s t ∧ t.i = s.i ∧ t.pc = s.pc ∧ t.sp = s.sp ∧ SameDisplay s t ∧
      t.drawDirty = s.drawDirty ∧ t.runState = s.runState

/-- R207, with the spec's decision D13: an image longer than 3584 bytes is refused whole, the machine is left as it
was, and the host may then not tick. The last clause, that it may not load again before the next reset either, is no
rule of the spec but the model's choice (DESIGN CHOICE, notes/assumptions/19.md). -/
def Obligations.OversizedImageIsRefusedWhole : Prop :=
  ∀ (image : List Byte) (s : State), 3584 < image.length →
    transact (.loadROM image) s = .refused (.imageTooLong image.length) ∧ hostRun [.loadROM image] s = s ∧
    Protocol .beforeReset [.reset, .loadROM image, .tick] = false ∧
    ∀ image', Protocol .beforeReset [.reset, .loadROM image, .loadROM image'] = false

/-- R205 and R206: after reset and an accepted load, the first tick executes the word at `0x200`: the image's first
two bytes, or zeros where the image is shorter. -/
def Obligations.FirstTickExecutesTheImagesFirstWord : Prop :=
  ∀ (image : List Byte) (s : State), launch image = some s →
    step s = exec (decode (wordOfBytes [image.getD 0 0x00, image.getD 1 0x00])) s

/-- R39 and R182, with the spec's decision D11: `AckDisplay` clears `draw_dirty` and nothing else, in every run
state. -/
def Obligations.AcknowledgeClearsDrawDirtyAlone : Prop :=
  ∀ s : State, ∃ t, transact .ackDisplay s = .next t ∧ t.drawDirty = false ∧
    SameRegisters s t ∧ t.i = s.i ∧ t.pc = s.pc ∧ t.sp = s.sp ∧ SameDisplay s t ∧ t.runState = s.runState ∧
    SameMemory s t

/-- R33, with the spec's decision D23: cell `(x, y)` is element `y * 64 + x` of the host's linear array. -/
def Obligations.LinearDisplayIsRowAfterRow : Prop :=
  ∀ (s : State) (x : Fin 64) (y : Fin 32) (k : Fin 2048), k.val = y.val * 64 + x.val →
    displayLinear s k = s.disp.get (x, y)

/-- The model's own placing of one instruction (notes/assumptions/12.md): the very next step runs it, from any state
with canonical memory. -/
def Obligations.PlacedWordIsTheNextInstruction : Prop :=
  ∀ (s : State) (w : Word), s.mem.wf = true →
    step (s.withFetchWord 16 w.toNat) = exec (decode w) (s.withFetchWord 16 w.toNat)
end

