-- ==== Sys2Proof/Laws/Decode.lean ====
section
/-! SUPPORT. The decoder's fields of the encoder's words, format by format (R82, R83), and the byte order. -/

namespace Sys2Proof

theorem fieldCls_toNat (w : Word) : (fieldCls w).val = w.toNat / 4096 := by
  have := w.isLt
  simp [fieldCls, Nat.shiftRight_eq_div_pow]; omega

theorem fieldX_toNat (w : Word) : (fieldX w).val = w.toNat / 256 % 16 := by
  simp [fieldX, Nat.shiftRight_eq_div_pow]

theorem fieldY_toNat (w : Word) : (fieldY w).val = w.toNat / 16 % 16 := by
  simp [fieldY, Nat.shiftRight_eq_div_pow]

theorem fieldN_toNat (w : Word) : (fieldN w).val = w.toNat % 16 := by
  simp [fieldN]

theorem fieldNN_toNat (w : Word) : (fieldNN w).toNat = w.toNat % 256 := by
  simp [fieldNN]

theorem fieldNNN_toNat (w : Word) : (fieldNNN w).toNat = w.toNat % 4096 := by
  simp [fieldNNN]

/-- Concatenation is a sum: the left part counts in units of the right part's range. -/
theorem toNat_append_sum {m n : Nat} (a : BitVec m) (b : BitVec n) :
    (a ++ b).toNat = a.toNat * 2 ^ n + b.toNat := by
  rw [BitVec.toNat_append, ← Nat.shiftLeft_add_eq_or_of_lt b.isLt, Nat.shiftLeft_eq]

/-- Two bytes, high first, are their concatenation (R55). -/
theorem wordOfBytes_pair (hi lo : Byte) : wordOfBytes [hi, lo] = hi ++ lo := by
  apply BitVec.eq_of_getLsbD_eq
  intro i h
  rw [BitVec.getLsbD_append]
  simp only [wordOfBytes, List.foldl_cons, List.foldl_nil]
  by_cases h8 : i < 8
  · simp [h8, h]
  · have := BitVec.getLsbD_of_ge lo i (by omega)
    simp [h8, h, this]

/-- Two bytes, high first, as a number (R80). -/
theorem wordOfBytes_toNat (hi lo : Byte) : (wordOfBytes [hi, lo]).toNat = hi.toNat * 256 + lo.toNat := by
  rw [wordOfBytes_pair, toNat_append_sum]; norm_num

/-- The bytes of a word, read back, are the word (R80). -/
theorem wordOfBytes_bytesOfWord (w : Word) : wordOfBytes (bytesOfWord w) = w := by
  apply BitVec.eq_of_toNat_eq
  have := w.isLt
  rw [bytesOfWord, wordOfBytes_toNat]
  simp [Nat.shiftRight_eq_div_pow]
  omega

theorem wordA_toNat (cls : BitVec 4) (nnn : Addr) : (wordA cls nnn).toNat = cls.toNat * 4096 + nnn.toNat :=
  toNat_append_sum cls nnn

theorem wordI_toNat (cls : BitVec 4) (x : RegIx) (nn : Byte) :
    (wordI cls x nn).toNat = cls.toNat * 4096 + x.val * 256 + nn.toNat := by
  rw [wordI, toNat_append_sum, toNat_append_sum]
  simp
  omega

theorem wordR_toNat (cls : BitVec 4) (x y : RegIx) (n : Fin 16) :
    (wordR cls x y n).toNat = cls.toNat * 4096 + x.val * 256 + y.val * 16 + n.val := by
  rw [wordR, toNat_append_sum, toNat_append_sum, toNat_append_sum]
  simp
  omega

/-- Each line of the opcode map, named by its class (R85). -/
theorem decode_of_cls {w : Word} {k : Fin 16} (h : fieldCls w = k) (hw : w ≠ 0x00E0) :
    decode w = opcodeMap[k] w := by
  subst h; rw [decode, if_neg hw]

end Sys2Proof
end

