-- ==== Sys2Proof/Laws/State.lean ====
section
/-! SUPPORT. What each update of the state does to each field: one lemma per field per update, true by definition.
Later proofs use these and do not unfold the updates. -/

namespace Sys2Proof.Machine

@[simp] theorem writeV_mem (s : State) (x : RegIx) (b : Byte) : (writeV s x b).mem = s.mem := rfl
@[simp] theorem writeV_v (s : State) (x : RegIx) (b : Byte) : (writeV s x b).v = s.v.set x b := rfl
@[simp] theorem writeV_i (s : State) (x : RegIx) (b : Byte) : (writeV s x b).i = s.i := rfl
@[simp] theorem writeV_pc (s : State) (x : RegIx) (b : Byte) : (writeV s x b).pc = s.pc := rfl
@[simp] theorem writeV_sp (s : State) (x : RegIx) (b : Byte) : (writeV s x b).sp = s.sp := rfl
@[simp] theorem writeV_disp (s : State) (x : RegIx) (b : Byte) : (writeV s x b).disp = s.disp := rfl
@[simp] theorem writeV_drawDirty (s : State) (x : RegIx) (b : Byte) : (writeV s x b).drawDirty = s.drawDirty := rfl
@[simp] theorem writeV_runState (s : State) (x : RegIx) (b : Byte) : (writeV s x b).runState = s.runState := rfl

@[simp] theorem advance_mem (s : State) : (advance s).mem = s.mem := rfl
@[simp] theorem advance_v (s : State) : (advance s).v = s.v := rfl
@[simp] theorem advance_i (s : State) : (advance s).i = s.i := rfl
@[simp] theorem advance_pc (s : State) : (advance s).pc = s.pc + 2 := rfl
@[simp] theorem advance_sp (s : State) : (advance s).sp = s.sp := rfl
@[simp] theorem advance_disp (s : State) : (advance s).disp = s.disp := rfl
@[simp] theorem advance_drawDirty (s : State) : (advance s).drawDirty = s.drawDirty := rfl
@[simp] theorem advance_runState (s : State) : (advance s).runState = s.runState := rfl

@[simp] theorem raise_mem (s : State) (c : Cause) : (raise c s).mem = s.mem := rfl
@[simp] theorem raise_v (s : State) (c : Cause) : (raise c s).v = s.v := rfl
@[simp] theorem raise_i (s : State) (c : Cause) : (raise c s).i = s.i := rfl
@[simp] theorem raise_pc (s : State) (c : Cause) : (raise c s).pc = s.pc := rfl
@[simp] theorem raise_sp (s : State) (c : Cause) : (raise c s).sp = s.sp := rfl
@[simp] theorem raise_disp (s : State) (c : Cause) : (raise c s).disp = s.disp := rfl
@[simp] theorem raise_drawDirty (s : State) (c : Cause) : (raise c s).drawDirty = s.drawDirty := rfl
@[simp] theorem raise_runState (s : State) (c : Cause) : (raise c s).runState = .faulted c := rfl

@[simp] theorem halt_mem (s : State) : (halt s).mem = s.mem := rfl
@[simp] theorem halt_v (s : State) : (halt s).v = s.v := rfl
@[simp] theorem halt_i (s : State) : (halt s).i = s.i := rfl
@[simp] theorem halt_pc (s : State) : (halt s).pc = s.pc := rfl
@[simp] theorem halt_sp (s : State) : (halt s).sp = s.sp := rfl
@[simp] theorem halt_disp (s : State) : (halt s).disp = s.disp := rfl
@[simp] theorem halt_drawDirty (s : State) : (halt s).drawDirty = s.drawDirty := rfl
@[simp] theorem halt_runState (s : State) : (halt s).runState = .halted := rfl

@[simp] theorem markDirty_mem (s : State) : (markDirty s).mem = s.mem := rfl
@[simp] theorem markDirty_v (s : State) : (markDirty s).v = s.v := rfl
@[simp] theorem markDirty_i (s : State) : (markDirty s).i = s.i := rfl
@[simp] theorem markDirty_pc (s : State) : (markDirty s).pc = s.pc := rfl
@[simp] theorem markDirty_sp (s : State) : (markDirty s).sp = s.sp := rfl
@[simp] theorem markDirty_disp (s : State) : (markDirty s).disp = s.disp := rfl
@[simp] theorem markDirty_drawDirty (s : State) : (markDirty s).drawDirty = true := rfl
@[simp] theorem markDirty_runState (s : State) : (markDirty s).runState = s.runState := rfl

@[simp] theorem ackDisplay_mem (s : State) : (ackDisplay s).mem = s.mem := rfl
@[simp] theorem ackDisplay_v (s : State) : (ackDisplay s).v = s.v := rfl
@[simp] theorem ackDisplay_i (s : State) : (ackDisplay s).i = s.i := rfl
@[simp] theorem ackDisplay_pc (s : State) : (ackDisplay s).pc = s.pc := rfl
@[simp] theorem ackDisplay_sp (s : State) : (ackDisplay s).sp = s.sp := rfl
@[simp] theorem ackDisplay_disp (s : State) : (ackDisplay s).disp = s.disp := rfl
@[simp] theorem ackDisplay_drawDirty (s : State) : (ackDisplay s).drawDirty = false := rfl
@[simp] theorem ackDisplay_runState (s : State) : (ackDisplay s).runState = s.runState := rfl

@[simp] theorem readV_writeV_self (s : State) (x : RegIx) (b : Byte) : readV (writeV s x b) x = b := by
  simp [readV]

theorem readV_writeV_other (s : State) {x y : RegIx} (b : Byte) (h : y ≠ x) :
    readV (writeV s x b) y = readV s y := by
  have : (x : Nat) ≠ y := fun e => h (Fin.ext e.symm)
  simp [readV, this]

/-- A register is read from the register file alone. -/
theorem readV_congr {s t : State} (h : t.v = s.v) (x : RegIx) : readV t x = readV s x := by
  simp [readV, h]

@[simp] theorem readV_advance (s : State) (x : RegIx) : readV (advance s) x = readV s x := rfl
@[simp] theorem readV_raise (s : State) (c : Cause) (x : RegIx) : readV (raise c s) x = readV s x := rfl
@[simp] theorem readV_halt (s : State) (x : RegIx) : readV (halt s) x = readV s x := rfl
@[simp] theorem readV_markDirty (s : State) (x : RegIx) : readV (markDirty s) x = readV s x := rfl

@[simp] theorem zext16_toNat (nnn : Addr) : (zext16 nnn).toNat = nnn.toNat := by
  have := nnn.isLt
  simp [zext16]; omega

end Sys2Proof.Machine
end

