-- ==== Sys2Proof/Laws/Display.lean ====
section
/-! SUPPORT. The laws of the display, and what the blitter's second phase does, cell by cell. -/

namespace Sys2Proof.Machine

@[simp] theorem Display.get_blank (p : Pixel) : Display.blank.get p = false := by
  simp [Display.blank, Display.get]

/-- A toggle changes its own cell and no other. -/
theorem Display.get_toggle (d : Display) (p q : Pixel) :
    (d.toggle p).get q = if q = p then !d.get q else d.get q := by
  obtain ⟨px, py⟩ := p
  obtain ⟨qx, qy⟩ := q
  by_cases hy : (py : Nat) = qy
  · have ey : py = qy := Fin.ext hy
    subst ey
    by_cases hx : (px : Nat) = qx
    · have ex : px = qx := Fin.ext hx
      subst ex
      simp [Display.get, Display.toggle]
    · have ne : qx ≠ px := fun e => hx (by rw [e])
      simp [Display.get, Display.toggle, hx, ne]
  · have ne : qy ≠ py := fun e => hy (by rw [e])
    simp [Display.get, Display.toggle, hy, ne]

/-- Displays with equal cells are equal. -/
theorem Display.ext_get {d e : Display} (h : ∀ p, d.get p = e.get p) : d = e := by
  apply Vector.ext
  intro y hy
  apply Vector.ext
  intro x hx
  simpa [Display.get] using h (⟨x, hx⟩, ⟨y, hy⟩)

/-- Phase 2 of `DRW` on distinct destinations (R131 corner case (g)): exactly they are toggled. -/
theorem get_blit {ps : List Pixel} (hn : ps.Nodup) (d : Display) (hit : Bool) (q : Pixel) :
    (blit ps (d, hit)).1.get q = if q ∈ ps then !d.get q else d.get q := by
  induction ps generalizing d hit with
  | nil => simp [blit]
  | cons p ps ih =>
    rw [List.nodup_cons] at hn
    rw [blit, ih hn.2, Display.get_toggle]
    by_cases e : q = p
    · subst e; simp [hn.1]
    · simp [e]

/-- Phase 2 of `DRW` on distinct destinations: the collision flag says whether one of them was on before. -/
theorem hit_blit {ps : List Pixel} (hn : ps.Nodup) (d : Display) (hit : Bool) :
    (blit ps (d, hit)).2 = (hit || ps.any d.get) := by
  induction ps generalizing d hit with
  | nil => simp [blit]
  | cons p ps ih =>
    rw [List.nodup_cons] at hn
    rw [blit, ih hn.2, List.any_cons, Bool.or_assoc]
    congr 2
    rw [Bool.eq_iff_iff]
    simp only [List.any_eq_true, Display.get_toggle]
    constructor <;> rintro ⟨q, hq, h⟩ <;> refine ⟨q, hq, ?_⟩ <;>
      have : q ≠ p := fun e => hn.1 (e ▸ hq)
    · simpa [this] using h
    · simpa [this] using h

end Sys2Proof.Machine
end

