-- ==== Sys2Proof/Laws/Memory.lean ====
section
/-! SUPPORT. The laws of memory: read after write, the canonical form is kept, and equal contents are equal lists. -/

namespace Sys2Proof.Machine

theorem Memory.unlisted_above {a : Nat} (h : Config.fontRegion ≤ a) : Memory.unlisted a = 0 := by
  simp [Memory.unlisted, Nat.not_lt.mpr h]

@[simp] theorem readByte_ok_iff {m : Memory} {a : Nat} {b : Byte} :
    readByte m a = .ok b ↔ a < 0x1000 ∧ m.lookup a = b := by
  unfold readByte; split <;> simp_all

@[simp] theorem readByte_error_iff {m : Memory} {a : Nat} {c : Cause} :
    readByte m a = .error c ↔ 0x1000 ≤ a ∧ c = .addressOutOfRange a := by
  unfold readByte Config.memSize
  split <;> simp_all [eq_comm]

theorem readByte_of_lt {m : Memory} {a : Nat} (h : a < 0x1000) : readByte m a = .ok (m.lookup a) := by
  simp [h]

theorem readByte_of_ge {m : Memory} {a : Nat} (h : 0x1000 ≤ a) :
    readByte m a = .error (.addressOutOfRange a) := by
  simp [h]

/-- An address below every listed one is not listed. -/
theorem Memory.lookup_of_wfFrom {m : Memory} {lo a : Nat} (h : m.wfFrom lo = true) (ha : a < lo) :
    m.lookup a = Memory.unlisted a := by
  induction m generalizing lo with
  | nil => rfl
  | cons e rest ih =>
    obtain ⟨k, b⟩ := e
    simp only [wfFrom, Bool.and_eq_true, decide_eq_true_eq] at h
    have hk : k ≠ a := by omega
    simp only [lookup, hk, if_false]
    exact ih h.2 (by omega)

theorem Memory.wfFrom_mono {m : Memory} {lo lo' : Nat} (h : m.wfFrom lo = true) (hl : lo' ≤ lo) :
    m.wfFrom lo' = true := by
  cases m with
  | nil => rfl
  | cons e rest =>
    simp only [wfFrom, Bool.and_eq_true, decide_eq_true_eq] at h ⊢
    exact ⟨⟨⟨by omega, h.1.1.2⟩, h.1.2⟩, h.2⟩

/-- A store keeps the canonical form. -/
theorem Memory.wfFrom_store {m : Memory} {lo a : Nat} (b : Byte) (h : m.wfFrom lo = true) (hlo : lo ≤ a)
    (ha : a < 0x1000) : (m.store a b).wfFrom lo = true := by
  induction m generalizing lo with
  | nil =>
    unfold store
    split <;> simp_all [wfFrom]
  | cons e rest ih =>
    obtain ⟨k, c⟩ := e
    have h0 := h
    simp only [wfFrom, Bool.and_eq_true, decide_eq_true_eq] at h
    obtain ⟨⟨⟨hk, hk'⟩, hc⟩, hr⟩ := h
    simp only [store]
    split
    · split
      · exact h0
      · rename_i hb
        simp only [wfFrom, Bool.and_eq_true, decide_eq_true_eq]
        exact ⟨⟨⟨hlo, ha⟩, by simpa using hb⟩, ⟨⟨by omega, hk'⟩, hc⟩, hr⟩
    · split
      · subst a
        split
        · exact wfFrom_mono hr (by omega)
        · rename_i hb
          simp only [wfFrom, Bool.and_eq_true, decide_eq_true_eq]
          exact ⟨⟨⟨hlo, ha⟩, by simpa using hb⟩, hr⟩
      · simp only [wfFrom, Bool.and_eq_true, decide_eq_true_eq]
        exact ⟨⟨⟨hk, hk'⟩, hc⟩, ih hr (by omega)⟩

theorem Memory.wf_store {m : Memory} {a : Nat} (b : Byte) (h : m.wf = true) (ha : a < 0x1000) :
    (m.store a b).wf = true :=
  wfFrom_store b h (Nat.zero_le a) ha

/-- Read after write, at the same address and at every other. -/
theorem Memory.lookup_store_from {m : Memory} {lo : Nat} (h : m.wfFrom lo = true) (a : Nat) (b : Byte) (a' : Nat) :
    (m.store a b).lookup a' = if a' = a then b else m.lookup a' := by
  induction m generalizing lo with
  | nil =>
    unfold store
    split <;> rename_i hb <;> simp only [lookup] <;> by_cases e : a' = a
    · simp [e, hb]
    · simp [e]
    · simp [e]
    · simp [e, Ne.symm e]
  | cons x rest ih =>
    obtain ⟨k, c⟩ := x
    have h0 := h
    simp only [wfFrom, Bool.and_eq_true, decide_eq_true_eq] at h
    obtain ⟨⟨⟨hk, hk'⟩, hc⟩, hr⟩ := h
    simp only [store]
    split
    · rename_i hlt
      split
      · rename_i hb
        by_cases e : a' = a
        · subst e
          have := lookup_of_wfFrom (wfFrom_mono hr (Nat.le_succ k)) hlt
          simp [lookup, Nat.ne_of_gt hlt, this, hb]
        · simp [e]
      · by_cases e : a' = a
        · subst e; simp [lookup]
        · simp [lookup, e, Ne.symm e]
    · split
      · subst a
        split
        · rename_i hb
          by_cases e : a' = k
          · subst e
            simp [lookup_of_wfFrom hr (Nat.lt_succ_self _), hb]
          · simp [lookup, e, Ne.symm e]
        · by_cases e : a' = k
          · subst e; simp [lookup]
          · simp [lookup, e, Ne.symm e]
      · rename_i hne
        simp only [lookup, ih hr]
        by_cases e : a' = a
        · subst e; simp [Ne.symm hne]
        · simp [e]

theorem Memory.lookup_store {m : Memory} (h : m.wf = true) (a : Nat) (b : Byte) (a' : Nat) :
    (m.store a b).lookup a' = if a' = a then b else m.lookup a' :=
  lookup_store_from h a b a'

/-- `MemWrite` inside the address space keeps the canonical form. -/
theorem memWrite_wf {m : Memory} {a : Nat} {bs : List Byte} (h : m.wf = true) (ha : a + bs.length ≤ 0x1000) :
    (memWrite m a bs).wf = true := by
  induction bs generalizing m a with
  | nil => exact h
  | cons b bs ih =>
    simp only [List.length_cons] at ha
    exact ih (Memory.wf_store b h (by omega)) (by omega)

/-- What `MemWrite` leaves at each address. -/
theorem lookup_memWrite {m : Memory} {a : Nat} {bs : List Byte} (h : m.wf = true) (ha : a + bs.length ≤ 0x1000)
    (a' : Nat) :
    (memWrite m a bs).lookup a' = if a ≤ a' ∧ a' < a + bs.length then bs.getD (a' - a) 0 else m.lookup a' := by
  induction bs generalizing m a with
  | nil => simp [memWrite]
  | cons b bs ih =>
    simp only [List.length_cons] at ha
    rw [memWrite, ih (Memory.wf_store b h (by omega)) (by omega), Memory.lookup_store h]
    rcases Nat.lt_trichotomy a' a with hlt | rfl | hgt
    · have h1 : ¬ (a + 1 ≤ a' ∧ a' < a + 1 + bs.length) := by omega
      have h2 : ¬ (a ≤ a' ∧ a' < a + (b :: bs).length) := by omega
      simp only [if_neg h1, if_neg h2, if_neg (show a' ≠ a by omega)]
    · have h1 : ¬ (a' + 1 ≤ a' ∧ a' < a' + 1 + bs.length) := by omega
      simp
    · obtain ⟨d, rfl⟩ : ∃ d, a' = a + 1 + d := ⟨a' - (a + 1), by omega⟩
      have e1 : a + 1 + d - (a + 1) = d := by omega
      have e2 : a + 1 + d - a = d + 1 := by omega
      have e3 : ¬ (a + 1 + d = a) := by omega
      rw [e1, e2, if_neg e3, List.getD_cons_succ]
      congr 1
      simp only [List.length_cons, eq_iff_iff]
      omega

/-- `MemRead` of two bytes (R53, R57): both bytes, or the lower of the two addresses that is out of range. -/
theorem memRead_two (m : Memory) (a : Nat) :
    memRead m a 2 =
      if a + 1 < 0x1000 then .ok [m.lookup a, m.lookup (a + 1)]
      else .error (.addressOutOfRange (if a < 0x1000 then a + 1 else a)) := by
  rcases Nat.lt_trichotomy (a + 1) 0x1000 with h | h | h
  · have h0 : a < 0x1000 := by omega
    simp [memRead, readByte_of_lt h0, readByte_of_lt h, h]
  · have h0 : a < 0x1000 := by omega
    have h1 : 0x1000 ≤ a + 1 := by omega
    simp [memRead, readByte_of_lt h0, readByte_of_ge h1, h0, show ¬ (a + 1 < 0x1000) by omega]
  · have h0 : 0x1000 ≤ a := by omega
    simp [memRead, readByte_of_ge h0, show ¬ (a + 1 < 0x1000) by omega, show ¬ (a < 0x1000) by omega]

end Sys2Proof.Machine
end

