-- ==== Sys2Proof/Laws/Scan.lean ====
section
/-! SUPPORT. What phase 1 of `DRW` answers: the destinations of the set sprite bits, or the first fault of its scan. -/

namespace Sys2Proof.Machine

theorem mem_columnOffsets {c : Nat} : c ∈ columnOffsets ↔ c < 8 := by
  simp [columnOffsets]; omega

theorem columnOffsets_nodup : columnOffsets.Nodup := by decide

/-- A row's scan succeeds exactly when every set bit is inside the grid. -/
theorem scanRow_ok_iff {row : Byte} {x0 y : Nat} {cs : List Nat} :
    (∃ ps, scanRow row x0 y cs = .ok ps) ↔ ∀ c ∈ cs, spriteBit row c = true → x0 + c < 64 ∧ y < 32 := by
  induction cs with
  | nil => simp [scanRow]
  | cons c cs ih =>
    unfold scanRow
    by_cases hb : spriteBit row c = true
    · by_cases h : x0 + c < 64 ∧ y < 32
      · have rest : (∀ b ∈ c :: cs, spriteBit row b = true → x0 + b < 64 ∧ y < 32) ↔
            ∃ ps, scanRow row x0 y cs = .ok ps := by rw [ih]; simp [h]
        rw [rest]
        simp only [hb, h, if_true, and_self, dite_true]
        cases scanRow row x0 y cs <;> simp
      · simp [hb, h]
    · simp [hb, ← ih]

/-- The destinations of a row: one for each set bit. -/
theorem mem_scanRow {row : Byte} {x0 y : Nat} {cs : List Nat} {ps : List Pixel}
    (h : scanRow row x0 y cs = .ok ps) (p : Pixel) :
    p ∈ ps ↔ (p.2 : Nat) = y ∧ ∃ c ∈ cs, spriteBit row c = true ∧ (p.1 : Nat) = x0 + c := by
  induction cs generalizing ps with
  | nil => simp [scanRow] at h; subst h; simp
  | cons c cs ih =>
    unfold scanRow at h
    by_cases hb : spriteBit row c = true
    · by_cases hg : x0 + c < 64 ∧ y < 32
      · simp only [hb, if_true, hg, and_self, dite_true] at h
        cases hr : scanRow row x0 y cs with
        | error e => simp [hr] at h
        | ok qs =>
          simp only [hr, Except.ok.injEq] at h
          subst h
          obtain ⟨px, py⟩ := p
          rw [List.exists_mem_cons_iff]
          simp only [List.mem_cons, ih hr, Prod.mk.injEq, Fin.ext_iff, hb, true_and]
          constructor
          · rintro (⟨h1, h2⟩ | ⟨h1, h2⟩)
            · exact ⟨h2, .inl h1⟩
            · exact ⟨h1, .inr h2⟩
          · rintro ⟨h1, h2 | h2⟩
            · exact .inl ⟨h2, h1⟩
            · exact .inr ⟨h1, h2⟩
      · simp [hb, hg] at h
    · simp only [hb] at h
      simp [ih h, hb]

/-- The destinations of a row are distinct cells (R131 corner case (g)). -/
theorem scanRow_nodup {row : Byte} {x0 y : Nat} {cs : List Nat} {ps : List Pixel} (hn : cs.Nodup)
    (h : scanRow row x0 y cs = .ok ps) : ps.Nodup := by
  induction cs generalizing ps with
  | nil => simp [scanRow] at h; subst h; simp
  | cons c cs ih =>
    rw [List.nodup_cons] at hn
    unfold scanRow at h
    by_cases hb : spriteBit row c = true
    · by_cases hg : x0 + c < 64 ∧ y < 32
      · simp only [hb, if_true, hg, and_self, dite_true] at h
        cases hr : scanRow row x0 y cs with
        | error e => simp [hr] at h
        | ok qs =>
          simp only [hr, Except.ok.injEq] at h
          subst h
          rw [List.nodup_cons]
          refine ⟨fun hm => ?_, ih hn.2 hr⟩
          obtain ⟨-, c', hc', -, e⟩ := (mem_scanRow hr _).mp hm
          have e' : c = c' := by simpa using e
          exact hn.1 (e' ▸ hc')
      · simp [hb, hg] at h
    · simp only [hb] at h
      exact ih hn.2 h

/-- What a row raises: the destination of a set bit outside the grid (R174), the first of its columns. -/
theorem scanRow_error_iff {row : Byte} {x0 y : Nat} {cs : List Nat} {e : Cause} :
    scanRow row x0 y cs = .error e ↔
      ∃ before c after, cs = before ++ c :: after ∧
        (∀ b ∈ before, spriteBit row b = true → x0 + b < 64 ∧ y < 32) ∧
        spriteBit row c = true ∧ ¬ (x0 + c < 64 ∧ y < 32) ∧ e = .drawOutOfRange (x0 + c) y := by
  induction cs with
  | nil => simp [scanRow]
  | cons c cs ih =>
    by_cases hb : spriteBit row c = true
    · by_cases hg : x0 + c < 64 ∧ y < 32
      · have step : scanRow row x0 y (c :: cs) = .error e ↔ scanRow row x0 y cs = .error e := by
          simp only [scanRow, hb, hg, if_true, and_self, dite_true]
          cases scanRow row x0 y cs <;> simp
        rw [step, ih]
        constructor
        · rintro ⟨b, c', a, rfl, h1, h2⟩
          exact ⟨c :: b, c', a, rfl, by simpa [hg] using h1, h2⟩
        · rintro ⟨b, c', a, e1, h1, h2, h3, h4⟩
          cases b with
          | nil => simp at e1; exact absurd hg (e1.1 ▸ h3)
          | cons b0 bs =>
            simp only [List.cons_append, List.cons.injEq] at e1
            exact ⟨bs, c', a, e1.2, fun b hb' => h1 b (List.mem_cons_of_mem _ hb'), h2, h3, h4⟩
      · simp only [scanRow, hb, hg, if_true, dite_false, Except.error.injEq]
        constructor
        · rintro rfl
          exact ⟨[], c, cs, rfl, by simp, hb, hg, rfl⟩
        · rintro ⟨b, c', a, e1, h1, h2, h3, h4⟩
          cases b with
          | nil => simp at e1; rw [h4, e1.1]
          | cons b0 bs =>
            simp only [List.cons_append, List.cons.injEq] at e1
            exact absurd (h1 b0 (by simp) (e1.1 ▸ hb)) (e1.1 ▸ hg)
    · simp only [scanRow, hb]
      rw [if_neg (by simp), ih]
      constructor
      · rintro ⟨b, c', a, rfl, h1, h2⟩
        exact ⟨c :: b, c', a, rfl, by simpa [hb] using h1, h2⟩
      · rintro ⟨b, c', a, e1, h1, h2, h3⟩
        cases b with
        | nil => simp at e1; exact absurd h2 (e1.1 ▸ hb)
        | cons b0 bs =>
          simp only [List.cons_append, List.cons.injEq] at e1
          exact ⟨bs, c', a, e1.2, fun b hb' => h1 b (List.mem_cons_of_mem _ hb'), h2, h3⟩

/-- The rows `r` to `r + n - 1` are clean: their addresses exist and their set bits fall inside the grid. -/
def RowsClean (m : Memory) (base x0 y0 n r : Nat) : Prop :=
  ∀ k, k < n → base + (r + k) < 0x1000 ∧
    ∀ c, c < 8 → spriteBit (m.lookup (base + (r + k))) c = true → x0 + c < 64 ∧ y0 + (r + k) < 32

theorem RowsClean_succ {m : Memory} {base x0 y0 n r : Nat} :
    RowsClean m base x0 y0 (n + 1) r ↔
      (base + r < 0x1000 ∧ ∀ c, c < 8 → spriteBit (m.lookup (base + r)) c = true → x0 + c < 64 ∧ y0 + r < 32) ∧
        RowsClean m base x0 y0 n (r + 1) := by
  constructor
  · intro h
    refine ⟨by simpa using h 0 (by omega), fun k hk => ?_⟩
    have := h (k + 1) (by omega)
    rwa [show r + (k + 1) = r + 1 + k by omega] at this
  · rintro ⟨h0, h⟩ k hk
    cases k with
    | zero => simpa using h0
    | succ k =>
      have := h k (by omega)
      rwa [show r + 1 + k = r + (k + 1) by omega] at this

/-- Phase 1 succeeds exactly on clean rows. -/
theorem scanRows_ok_iff {m : Memory} {base x0 y0 n r : Nat} :
    (∃ ps, scanRows m base x0 y0 n r = .ok ps) ↔ RowsClean m base x0 y0 n r := by
  induction n generalizing r with
  | zero => simp [scanRows, RowsClean]
  | succ n ih =>
    rw [RowsClean_succ, scanRows]
    by_cases ha : base + r < 0x1000
    · have key := @scanRow_ok_iff (m.lookup (base + r)) x0 (y0 + r) columnOffsets
      simp only [mem_columnOffsets] at key
      simp only [readByte_of_lt ha, ha, true_and, ← ih, ← key]
      cases scanRow (m.lookup (base + r)) x0 (y0 + r) columnOffsets with
      | error e => simp
      | ok here => cases scanRows m base x0 y0 n (r + 1) <;> simp
    · simp [readByte_of_ge (Nat.not_lt.mp ha), ha]

/-- The destinations: one for each set bit of each row. -/
theorem mem_scanRows {m : Memory} {base x0 y0 n r : Nat} {ps : List Pixel}
    (h : scanRows m base x0 y0 n r = .ok ps) (p : Pixel) :
    p ∈ ps ↔ ∃ k, k < n ∧ (p.2 : Nat) = y0 + (r + k) ∧
      ∃ c, c < 8 ∧ spriteBit (m.lookup (base + (r + k))) c = true ∧ (p.1 : Nat) = x0 + c := by
  induction n generalizing r ps with
  | zero => simp [scanRows] at h; subst h; simp
  | succ n ih =>
    rw [scanRows] at h
    by_cases ha : base + r < 0x1000
    · simp only [readByte_of_lt ha] at h
      cases hr : scanRow (m.lookup (base + r)) x0 (y0 + r) columnOffsets with
      | error e => simp [hr] at h
      | ok here =>
        cases hs : scanRows m base x0 y0 n (r + 1) with
        | error e => simp [hr, hs] at h
        | ok later =>
          simp only [hr, hs, Except.ok.injEq] at h
          subst h
          rw [List.mem_append, mem_scanRow hr, ih hs]
          simp only [mem_columnOffsets]
          constructor
          · rintro (h1 | ⟨k, hk, h1⟩)
            · exact ⟨0, by omega, by simpa using h1⟩
            · exact ⟨k + 1, by omega, by rwa [show r + (k + 1) = r + 1 + k by omega]⟩
          · rintro ⟨k, hk, h1⟩
            cases k with
            | zero => exact .inl (by simpa using h1)
            | succ k => exact .inr ⟨k, by omega, by rwa [show r + 1 + k = r + (k + 1) by omega]⟩
    · simp [readByte_of_ge (Nat.not_lt.mp ha)] at h

/-- All destinations of one `DRW` are different cells (R131 corner case (g)). -/
theorem scanRows_nodup {m : Memory} {base x0 y0 n r : Nat} {ps : List Pixel}
    (h : scanRows m base x0 y0 n r = .ok ps) : ps.Nodup := by
  induction n generalizing r ps with
  | zero => simp [scanRows] at h; subst h; simp
  | succ n ih =>
    rw [scanRows] at h
    by_cases ha : base + r < 0x1000
    · simp only [readByte_of_lt ha] at h
      cases hr : scanRow (m.lookup (base + r)) x0 (y0 + r) columnOffsets with
      | error e => simp [hr] at h
      | ok here =>
        cases hs : scanRows m base x0 y0 n (r + 1) with
        | error e => simp [hr, hs] at h
        | ok later =>
          simp only [hr, hs, Except.ok.injEq] at h
          subst h
          refine List.nodup_append.mpr ⟨scanRow_nodup columnOffsets_nodup hr, ih hs, ?_⟩
          rintro a h1 b h2 rfl
          have e1 := ((mem_scanRow hr _).mp h1).1
          obtain ⟨k, -, e2, -⟩ := (mem_scanRows hs _).mp h2
          omega
    · simp [readByte_of_ge (Nat.not_lt.mp ha)] at h

/-- What phase 1 raises (R177): the fault of the first row that is not clean, the address before the bits. -/
theorem scanRows_error_iff {m : Memory} {base x0 y0 n r : Nat} {e : Cause} :
    scanRows m base x0 y0 n r = .error e ↔
      ∃ k, k < n ∧ RowsClean m base x0 y0 k r ∧
        ((0x1000 ≤ base + (r + k) ∧ e = .addressOutOfRange (base + (r + k))) ∨
          (base + (r + k) < 0x1000 ∧
            scanRow (m.lookup (base + (r + k))) x0 (y0 + (r + k)) columnOffsets = .error e)) := by
  induction n generalizing r with
  | zero => simp [scanRows]
  | succ n ih =>
    have key := @scanRow_ok_iff (m.lookup (base + r)) x0 (y0 + r) columnOffsets
    simp only [mem_columnOffsets] at key
    by_cases ha : base + r < 0x1000
    · cases hr : scanRow (m.lookup (base + r)) x0 (y0 + r) columnOffsets with
      | error e' =>
        have bad : ∀ {j}, ¬ RowsClean m base x0 y0 (j + 1) r := fun hc => by
          have := key.mpr (RowsClean_succ.mp hc).1.2
          simp [hr] at this
        simp only [scanRows, readByte_of_lt ha, hr, Except.error.injEq]
        constructor
        · rintro rfl
          exact ⟨0, by omega, by simp [RowsClean], .inr ⟨by simpa using ha, by simpa using hr⟩⟩
        · rintro ⟨k, hk, hc, h⟩
          cases k with
          | zero =>
            rcases h with ⟨h1, -⟩ | ⟨-, h2⟩
            · simp at h1; omega
            · simpa [hr] using h2
          | succ k => exact absurd hc bad
      | ok here =>
        have good := key.mp ⟨here, hr⟩
        have step : scanRows m base x0 y0 (n + 1) r = .error e ↔ scanRows m base x0 y0 n (r + 1) = .error e := by
          simp only [scanRows, readByte_of_lt ha, hr]
          cases scanRows m base x0 y0 n (r + 1) <;> simp
        rw [step, ih]
        constructor
        · rintro ⟨k, hk, hc, h⟩
          refine ⟨k + 1, by omega, RowsClean_succ.mpr ⟨⟨ha, good⟩, hc⟩, ?_⟩
          rwa [show r + (k + 1) = r + 1 + k by omega]
        · rintro ⟨k, hk, hc, h⟩
          cases k with
          | zero =>
            rcases h with ⟨h1, -⟩ | ⟨-, h2⟩
            · simp at h1; omega
            · simp [hr] at h2
          | succ k =>
            refine ⟨k, by omega, (RowsClean_succ.mp hc).2, ?_⟩
            rwa [show r + 1 + k = r + (k + 1) by omega]
    · have bad : ∀ {j}, ¬ RowsClean m base x0 y0 (j + 1) r := fun hc => ha (RowsClean_succ.mp hc).1.1
      simp only [scanRows, readByte_of_ge (Nat.not_lt.mp ha), Except.error.injEq]
      constructor
      · rintro rfl
        exact ⟨0, by omega, by simp [RowsClean], .inl ⟨by simpa using ha, by simp⟩⟩
      · rintro ⟨k, hk, hc, h⟩
        cases k with
        | zero =>
          rcases h with ⟨-, h1⟩ | ⟨h1, -⟩
          · simpa using h1.symm
          · simp at h1; omega
        | succ k => exact absurd hc bad

end Sys2Proof.Machine
end

