-- ==== Sys2Proof/Laws/Step.lean ====
section
/-! SUPPORT. What the fetch, an instruction and a step can do, said once; provers cite these and do not unfold. -/

namespace Sys2Proof.Machine

/-- The fetch of a word (R57, R66, R80): both bytes big-endian, or the lower address out of range. -/
theorem fetchWord_eq (m : Memory) (pc : Nat) :
    fetchWord m pc =
      if pc + 1 < 0x1000 then .ok (wordOfBytes [m.lookup pc, m.lookup (pc + 1)])
      else .error (.addressOutOfRange (if pc < 0x1000 then pc + 1 else pc)) := by
  rw [fetchWord, memRead_two]
  by_cases h : pc + 1 < 0x1000 <;> simp [h]

/-- The tests before execution, in their order (R88, R177). -/
theorem fetchStage_cases (s : State) :
    (s.runState ≠ .running ∧ fetchStage s = .inert) ∨
    (s.runState = .running ∧ 0x1000 ≤ s.pc.toNat ∧ fetchStage s = .pastEnd) ∨
    (s.runState = .running ∧ s.pc.toNat = 0xFFF ∧ fetchStage s = .raised (.addressOutOfRange 0x1000)) ∨
    (s.runState = .running ∧ s.pc.toNat < 0xFFF ∧
      fetchStage s = .word (wordOfBytes [s.mem.lookup s.pc.toNat, s.mem.lookup (s.pc.toNat + 1)])) := by
  cases hr : s.runState with
  | halted => exact .inl ⟨by simp, by simp [fetchStage, hr]⟩
  | faulted c => exact .inl ⟨by simp, by simp [fetchStage, hr]⟩
  | running =>
    refine .inr ?_
    rcases Nat.lt_trichotomy s.pc.toNat 0xFFF with h | h | h
    · refine .inr (.inr ⟨rfl, h, ?_⟩)
      simp [fetchStage, hr, fetchWord_eq, show ¬ (0x1000 ≤ s.pc.toNat) by omega, show s.pc.toNat + 1 < 0x1000 by omega]
    · refine .inr (.inl ⟨rfl, h, ?_⟩)
      simp [fetchStage, hr, fetchWord_eq, h]
    · refine .inl ⟨rfl, h, ?_⟩
      simp [fetchStage, hr, show 0x1000 ≤ s.pc.toNat from h]

/-- `DRW` either commits the destinations its phase 1 found or raises, changing nothing but the run state. -/
theorem drawSprite_cases (x y : RegIx) (n : Fin 16) (s : State) :
    (∃ ps, scanSprite s x y n = .ok ps ∧ drawSprite x y n s = commitDraw ps s) ∨
    (∃ c, scanSprite s x y n = .error c ∧ drawSprite x y n s = raise c s) := by
  unfold drawSprite
  cases h : scanSprite s x y n with
  | ok ps => exact .inl ⟨ps, rfl, rfl⟩
  | error c => exact .inr ⟨c, rfl, rfl⟩

@[simp] theorem commitDraw_mem (ps : List Pixel) (s : State) : (commitDraw ps s).mem = s.mem := rfl
@[simp] theorem commitDraw_v (ps : List Pixel) (s : State) :
    (commitDraw ps s).v = s.v.set vf (collisionFlag (blit ps (s.disp, false)).2) := rfl
@[simp] theorem commitDraw_i (ps : List Pixel) (s : State) : (commitDraw ps s).i = s.i := rfl
@[simp] theorem commitDraw_pc (ps : List Pixel) (s : State) : (commitDraw ps s).pc = s.pc + 2 := rfl
@[simp] theorem commitDraw_sp (ps : List Pixel) (s : State) : (commitDraw ps s).sp = s.sp := rfl
@[simp] theorem commitDraw_disp (ps : List Pixel) (s : State) :
    (commitDraw ps s).disp = (blit ps (s.disp, false)).1 := rfl
@[simp] theorem commitDraw_drawDirty (ps : List Pixel) (s : State) : (commitDraw ps s).drawDirty = true := rfl
@[simp] theorem commitDraw_runState (ps : List Pixel) (s : State) : (commitDraw ps s).runState = s.runState := rfl

/-- Every instruction is one of the executed six, or one of the eleven no-operations: the next state of each. -/
theorem exec_cases (i : Instr) (s : State) :
    (i = .cls ∧ exec i s = .next (advance (markDirty { s with disp := Display.blank }))) ∨
    (∃ nnn, i = .jp nnn ∧ exec i s = .next { s with pc := zext16 nnn }) ∨
    (∃ x nn, i = .ldVx x nn ∧ exec i s = .next (advance (writeV s x nn))) ∨
    (∃ x nn, i = .addVx x nn ∧ exec i s = .next (advance (writeV s x (readV s x + nn)))) ∨
    (∃ nnn, i = .ldI nnn ∧ exec i s = .next (advance { s with i := zext16 nnn })) ∨
    (∃ x y n ps, i = .drw x y n ∧ scanSprite s x y n = .ok ps ∧ exec i s = .next (commitDraw ps s)) ∨
    (∃ x y n c, i = .drw x y n ∧ scanSprite s x y n = .error c ∧ exec i s = .next (raise c s)) ∨
    (i.unexecuted = true ∧ exec i s = .next (advance s)) := by
  cases i with
  | cls => exact .inl ⟨rfl, rfl⟩
  | jp nnn => exact .inr (.inl ⟨nnn, rfl, rfl⟩)
  | ldVx x nn => exact .inr (.inr (.inl ⟨x, nn, rfl, rfl⟩))
  | addVx x nn => exact .inr (.inr (.inr (.inl ⟨x, nn, rfl, rfl⟩)))
  | ldI nnn => exact .inr (.inr (.inr (.inr (.inl ⟨nnn, rfl, rfl⟩))))
  | drw x y n =>
    rcases drawSprite_cases x y n s with ⟨ps, h1, h2⟩ | ⟨c, h1, h2⟩
    · exact .inr (.inr (.inr (.inr (.inr (.inl ⟨x, y, n, ps, rfl, h1, congrArg Host.Outcome.next h2⟩)))))
    · exact .inr (.inr (.inr (.inr (.inr (.inr (.inl ⟨x, y, n, c, rfl, h1, congrArg Host.Outcome.next h2⟩))))))
  | unx0 nnn | unx2 nnn | unx3 nnn | unx4 nnn | unx5 nnn | unx8 nnn | unx9 nnn | unxB nnn | unxC nnn | unxE nnn
  | unxF nnn => exact .inr (.inr (.inr (.inr (.inr (.inr (.inr ⟨rfl, rfl⟩))))))

/-- What a step can do. -/
theorem step_cases (s : State) :
    (s.runState ≠ .running ∧ step s = .next s) ∨
    (s.runState = .running ∧ 0x1000 ≤ s.pc.toNat ∧ step s = .next (halt s)) ∨
    (s.runState = .running ∧ s.pc.toNat = 0xFFF ∧ step s = .next (raise (.addressOutOfRange 0x1000) s)) ∨
    (s.runState = .running ∧ s.pc.toNat < 0xFFF ∧
      step s = exec (decode (wordOfBytes [s.mem.lookup s.pc.toNat, s.mem.lookup (s.pc.toNat + 1)])) s) := by
  unfold step
  rcases fetchStage_cases s with ⟨h, e⟩ | ⟨h, h', e⟩ | ⟨h, h', e⟩ | ⟨h, h', e⟩ <;> rw [e]
  · exact .inl ⟨h, rfl⟩
  · exact .inr (.inl ⟨h, h', rfl⟩)
  · exact .inr (.inr (.inl ⟨h, h', rfl⟩))
  · exact .inr (.inr (.inr ⟨h, h', rfl⟩))

/-- A run of one more step, when that step answers a next state. -/
theorem run_succ_of_next {M : Host.Core} {s s' : M.State} (k : Nat) (h : M.step s = .next s') :
    M.run (k + 1) s = M.run k s' := by
  simp [Host.Core.run, h]

/-- Loading an image keeps memory canonical, whatever the image (R207). -/
theorem loadROM_wf {image : List Byte} {s t : State} (h : s.mem.wf = true) (ht : loadROM image s = some t) :
    t.mem.wf = true := by
  unfold loadROM at ht
  split at ht
  · rename_i hl
    cases ht
    exact memWrite_wf h (by simp only [Config.romMax, Config.progBase] at *; omega)
  · cases ht

/-- Placing an instruction for the host keeps memory canonical. -/
theorem withFetchWord_wf {s : State} (h : s.mem.wf = true) (nbits w : Nat) :
    (s.withFetchWord nbits w).mem.wf = true := by
  unfold State.withFetchWord
  refine memWrite_wf h ?_
  simp only [bytesOfWord, List.length_cons, List.length_nil]
  split
  · omega
  · decide

theorem reset_mem_wf : State.reset.mem.wf = true := rfl

end Sys2Proof.Machine
end

