-- ==== Sys2Proof/Laws/Draw.lean ====
section
/-! SUPPORT. The terms of the statements about `DRW` (Safety.lean, in the words of R131) and the blitter's scan say the
same, and what a `DRW` does in those terms. -/

namespace Sys2Proof

open Machine

theorem spriteBitSet_iff {s : State} {r c : Nat} :
    SpriteBitSet s r c ↔ s.i.toNat + r < 0x1000 ∧ spriteBit (s.mem.lookup (s.i.toNat + r)) c = true := by
  simp only [SpriteBitSet, readByte_ok_iff, spriteBit]
  constructor
  · rintro ⟨b, ⟨h, rfl⟩, hb⟩; exact ⟨h, hb⟩
  · rintro ⟨h, hb⟩; exact ⟨_, ⟨h, rfl⟩, hb⟩

/-- Clean rows, in the words of R131. -/
theorem rowsClean_iff {s : State} {x y : RegIx} {k : Nat} :
    RowsClean s.mem (spriteBase s) (coordinate s x) (coordinate s y) k 0 ↔ ∀ r, r < k → RowDrawable s x y r := by
  simp only [RowsClean, RowDrawable, spriteBitSet_iff, spriteBase, coordinate, Nat.zero_add]
  refine forall_congr' fun r => imp_congr_right fun _ => ?_
  constructor
  · rintro ⟨ha, hb⟩
    exact ⟨by omega, fun c hc ⟨_, hs⟩ => ⟨by have := (hb c hc hs).1; omega, by have := (hb c hc hs).2; omega⟩⟩
  · rintro ⟨ha, hb⟩
    have ha' : s.i.toNat + r < 0x1000 := by omega
    exact ⟨ha', fun c hc hs => ⟨by have := (hb c hc ⟨ha', hs⟩).1; omega, by have := (hb c hc ⟨ha', hs⟩).2; omega⟩⟩

/-- The scan finds destinations exactly when the sprite is drawable. -/
theorem scanSprite_ok_iff {s : State} {x y : RegIx} {n : Fin 16} :
    (∃ ps, scanSprite s x y n = .ok ps) ↔ Drawable s x y n := by
  rw [scanSprite, scanRows_ok_iff, rowsClean_iff, Drawable]

/-- The destinations are the cells under set bits. -/
theorem mem_scanSprite {s : State} {x y : RegIx} {n : Fin 16} {ps : List Pixel} (h : scanSprite s x y n = .ok ps)
    (p : Pixel) : p ∈ ps ↔ UnderSetBit s x y n p := by
  have clean := rowsClean_iff.mp (scanRows_ok_iff.mp ⟨ps, h⟩)
  rw [mem_scanRows h]
  simp only [UnderSetBit, spriteBitSet_iff, spriteBase, coordinate, Nat.zero_add]
  constructor
  · rintro ⟨r, hr, hy, c, hc, hs, hx⟩
    exact ⟨r, c, hr, hc, ⟨by have := (clean r hr).1; omega, hs⟩, hx, hy⟩
  · rintro ⟨r, c, hr, hc, ⟨_, hs⟩, hx, hy⟩
    exact ⟨r, hr, hy, c, hc, hs, hx⟩

theorem scanSprite_nodup {s : State} {x y : RegIx} {n : Fin 16} {ps : List Pixel}
    (h : scanSprite s x y n = .ok ps) : ps.Nodup := scanRows_nodup h

/-- A commit's display: exactly the destinations are toggled. -/
theorem commitDraw_get {ps : List Pixel} (hn : ps.Nodup) (s : State) (p : Pixel) :
    (commitDraw ps s).disp.get p = if p ∈ ps then !s.disp.get p else s.disp.get p := by
  rw [commitDraw_disp, get_blit hn]

/-- A commit's VF: whether a destination was on before. -/
theorem commitDraw_vf {ps : List Pixel} (hn : ps.Nodup) (s : State) :
    readV (commitDraw ps s) vf = collisionFlag (ps.any s.disp.get) := by
  simp [readV, commitDraw_v, hit_blit hn]

theorem commitDraw_other {ps : List Pixel} (s : State) {r : RegIx} (h : r ≠ vf) :
    readV (commitDraw ps s) r = readV s r := by
  have : (15 : Nat) ≠ r := fun e => h (Fin.ext e.symm)
  simp [readV, commitDraw_v, vf, this]

end Sys2Proof
end

