-- ==== Sys2Proof/Laws/PerInstr.lean ====
section
/-! SUPPORT. Facts about every instruction as syntax, one lemma per constructor. Family `ClassNibble`: the top nibble
of an instruction's word is the class the opcode table gives its row (R85). -/

namespace Sys2Proof.Laws.ClassNibble

/-- The class `cls` of the row an instruction belongs to (R85). -/
def rowClass : Instr → Fin 16
  | .cls => 0x0
  | .unx0 _ => 0x0
  | .jp _ => 0x1
  | .unx2 _ => 0x2
  | .unx3 _ => 0x3
  | .unx4 _ => 0x4
  | .unx5 _ => 0x5
  | .ldVx _ _ => 0x6
  | .addVx _ _ => 0x7
  | .unx8 _ => 0x8
  | .unx9 _ => 0x9
  | .ldI _ => 0xA
  | .unxB _ => 0xB
  | .unxC _ => 0xC
  | .drw _ _ _ => 0xD
  | .unxE _ => 0xE
  | .unxF _ => 0xF

/-- The word of `i` has the top nibble of its row. -/
def Statement (i : Instr) : Prop := fieldCls (encode i) = rowClass i

theorem of_wordA (c : BitVec 4) (nnn : Addr) : fieldCls (wordA c nnn) = c.toFin := by
  apply Fin.ext
  show (fieldCls (wordA c nnn)).val = c.toNat
  rw [fieldCls_toNat, wordA_toNat]
  have := nnn.isLt
  omega

theorem of_wordI (c : BitVec 4) (x : RegIx) (nn : Byte) : fieldCls (wordI c x nn) = c.toFin := by
  apply Fin.ext
  show (fieldCls (wordI c x nn)).val = c.toNat
  rw [fieldCls_toNat, wordI_toNat]
  have := nn.isLt
  have := x.isLt
  omega

theorem of_wordR (c : BitVec 4) (x y : RegIx) (n : Fin 16) : fieldCls (wordR c x y n) = c.toFin := by
  apply Fin.ext
  show (fieldCls (wordR c x y n)).val = c.toNat
  rw [fieldCls_toNat, wordR_toNat]
  omega

theorem cls : Statement .cls := by unfold Statement; decide
theorem unx0 (nnn : Addr) : Statement (.unx0 nnn) := of_wordA 0x0 nnn
theorem jp (nnn : Addr) : Statement (.jp nnn) := of_wordA 0x1 nnn
theorem unx2 (nnn : Addr) : Statement (.unx2 nnn) := of_wordA 0x2 nnn
theorem unx3 (nnn : Addr) : Statement (.unx3 nnn) := of_wordA 0x3 nnn
theorem unx4 (nnn : Addr) : Statement (.unx4 nnn) := of_wordA 0x4 nnn
theorem unx5 (nnn : Addr) : Statement (.unx5 nnn) := of_wordA 0x5 nnn
theorem ldVx (x : RegIx) (nn : Byte) : Statement (.ldVx x nn) := of_wordI 0x6 x nn
theorem addVx (x : RegIx) (nn : Byte) : Statement (.addVx x nn) := of_wordI 0x7 x nn
theorem unx8 (nnn : Addr) : Statement (.unx8 nnn) := of_wordA 0x8 nnn
theorem unx9 (nnn : Addr) : Statement (.unx9 nnn) := of_wordA 0x9 nnn
theorem ldI (nnn : Addr) : Statement (.ldI nnn) := of_wordA 0xA nnn
theorem unxB (nnn : Addr) : Statement (.unxB nnn) := of_wordA 0xB nnn
theorem unxC (nnn : Addr) : Statement (.unxC nnn) := of_wordA 0xC nnn
theorem drw (x y : RegIx) (n : Fin 16) : Statement (.drw x y n) := of_wordR 0xD x y n
theorem unxE (nnn : Addr) : Statement (.unxE nnn) := of_wordA 0xE nnn
theorem unxF (nnn : Addr) : Statement (.unxF nnn) := of_wordA 0xF nnn

end Sys2Proof.Laws.ClassNibble
end

