-- ==== Sys2Proof/Tests/Slice0.lean ====
section
/-! SUPPORT. The model's own tests. Expected results come from spec/: the encodings of 30_encoding.md (R83), the vectors
V1 to V10 of 95_test_vectors.md, and the worked examples of the instruction rules. The witnesses at the end show, for
every statement with hypotheses, a concrete case that meets them together. -/

namespace Sys2Proof.Tests

open Machine

/-! Well-formedness: the check refuses the one ill-formed term. -/

theorem test_unx0_0E0_is_ill_formed : ¬ WellFormed (.unx0 0x0E0) := by decide
theorem test_unx0_neighbours_are_well_formed : WellFormed (.unx0 0x0E1) ∧ WellFormed (.unx0 0x1E0) := by decide

/-! Decoding: for every constructor a word written out bit by bit from the table's `encoding`, and table V1. -/

theorem test_decode_cls : decode 0b0000_0000_1110_0000#16 = .cls := by decide
theorem test_decode_unx0 : decode 0b0000_0000_1110_1110#16 = .unx0 0x0EE := by decide
theorem test_decode_jp : decode 0b0001_0010_0000_0110#16 = .jp 0x206 := by decide
theorem test_decode_unx2 : decode 0b0010_1010_1011_1100#16 = .unx2 0xABC := by decide
theorem test_decode_unx3 : decode 0b0011_0000_0000_0001#16 = .unx3 0x001 := by decide
theorem test_decode_unx4 : decode 0b0100_1000_0000_0001#16 = .unx4 0x801 := by decide
theorem test_decode_unx5 : decode 0b0101_0001_0010_0000#16 = .unx5 0x120 := by decide
theorem test_decode_ldVx : decode 0b0110_1010_0011_1100#16 = .ldVx 10 0x3C := by decide
theorem test_decode_addVx : decode 0b0111_1111_1111_1010#16 = .addVx 15 0xFA := by decide
theorem test_decode_unx8 : decode 0b1000_0000_0001_0100#16 = .unx8 0x014 := by decide
theorem test_decode_unx9 : decode 0b1001_0000_0001_0000#16 = .unx9 0x010 := by decide
theorem test_decode_ldI : decode 0b1010_0010_0000_1100#16 = .ldI 0x20C := by decide
theorem test_decode_unxB : decode 0b1011_0011_0000_0000#16 = .unxB 0x300 := by decide
theorem test_decode_unxC : decode 0b1100_0000_1111_1111#16 = .unxC 0x0FF := by decide
theorem test_decode_drw : decode 0b1101_0101_1010_0111#16 = .drw 5 10 7 := by decide
theorem test_decode_unxE : decode 0b1110_0000_1001_1110#16 = .unxE 0x09E := by decide
theorem test_decode_unxF : decode 0b1111_0001_0001_1110#16 = .unxF 0x11E := by decide

/-- The example of R80: bytes `12 06` are the word `0x1206`; bytes `E0 00` are no `CLS` (table V1). -/
theorem test_bytes_are_high_first :
    decodeBytes [0x12, 0x06, 0xFF] = .ok (.jp 0x206, [0xFF]) ∧ decodeBytes [0xE0, 0x00] = .ok (.unxE 0x000, []) ∧
    decodeBytes [] = .error .noBytes ∧ decodeBytes [0x12] = .error .oneByte := by
  refine ⟨rfl, rfl, rfl, rfl⟩

/-- The encodings of R92. -/
theorem test_encode_words :
    encode .cls = 0x00E0 ∧ encode (.jp 0x206) = 0x1206 ∧ encode (.ldVx 10 0x3C) = 0x6A3C ∧
    encode (.addVx 15 0xFA) = 0x7FFA ∧ encode (.ldI 0x20C) = 0xA20C ∧ encode (.drw 5 10 7) = 0xD5A7 ∧
    encode (.unxC 0x0FF) = 0xC0FF := by decide

theorem test_decodeTableWord :
    decodeTableWord 16 0x00E0 = some .cls ∧ decodeTableWord 16 0xD5A7 = some (.drw 5 10 7) ∧
    decodeTableWord 32 0x00E0 = none := by decide

/-! One step each, on small states. -/

/-- The reset state with the display acknowledged. -/
def base : State := { State.reset with drawDirty := false }

/-- `base` with bytes stored from `a` upward. -/
def bytesAt (a : Nat) (bs : List Byte) : State := { base with mem := memWrite base.mem a bs }

/-- The next state of an outcome. -/
def after : Host.Outcome State Fault Refusal → Option State
  | .next s => some s
  | .fault _ => none
  | .refused _ => none

/-- One step of `s` with the word `w` where it fetches next. -/
def tick (w : Nat) (s : State) : Option State := after (step (s.withFetchWord 16 w))

/-- Table V2: the operand exactly, an odd target, a jump to self, an odd `pc`. -/
theorem test_jp :
    (tick 0x1206 base).map (·.pc) = some 0x206 ∧ (tick 0x1201 base).map (·.pc) = some 0x201 ∧
    (tick 0x1200 base).map (·.pc) = some 0x200 ∧ (tick 0x1ABC { base with pc := 0x3A1 }).map (·.pc) = some 0xABC := by
  decide

/-- Table V3: `VF` is a plain destination. -/
theorem test_ldVx :
    (tick 0x600A base).map (fun t => (readV t 0, t.pc)) = some (0x0A, 0x202) ∧
    (tick 0x6F07 base).map (fun t => readV t 15) = some 0x07 := by
  decide

/-- Table V4: `0xFF + 2` is `0x01`, and VF gets no carry; on VF itself the wrapped sum. -/
theorem test_addVx :
    (tick 0x7002 (writeV base 0 0xFF)).map (fun t => (readV t 0, readV t 15, t.pc)) = some (0x01, 0x00, 0x202) ∧
    (tick 0x7FFA (writeV base 15 0x07)).map (fun t => readV t 15) = some 0x01 := by
  decide

/-- Table V5: the address is loaded, zero-extended. -/
theorem test_ldI :
    (tick 0xA20C base).map (fun t => (t.i, t.pc)) = some (0x020C, 0x202) ∧
    (tick 0xAFFF base).map (·.i) = some 0x0FFF := by
  decide

/-- Table V6: cells cleared, `draw_dirty` raised, VF kept, no jump; `0x00EE` clears nothing. -/
theorem test_cls :
    (tick 0x00E0 (writeV { base with disp := (base.disp.toggle (0, 0)).toggle (63, 31) } 15 1)).map
      (fun t => (t.disp.get (0, 0), t.disp.get (63, 31), t.drawDirty, readV t 15, t.pc)) =
      some (false, false, true, 0x01, 0x202) ∧
    (tick 0x00EE { base with disp := base.disp.toggle (5, 5) }).map (fun t => (t.disp.get (5, 5), t.drawDirty)) =
      some (true, false) := by
  decide

/-- The words of table V8. -/
def wordsV8 : List Nat :=
  [0x0000, 0x00EE, 0x0123, 0x2300, 0x3000, 0x4001, 0x5000, 0x8014, 0x9010, 0xB300, 0xC0FF, 0xE0A1, 0xF11E, 0xF00A]

/-- Table V8, from a state with `V1 = 2` and `I = 0x300`: `pc` advances by 2, and `V0`, `V1`, VF, `I`, `sp` and
`draw_dirty` are as before. -/
theorem test_unexecuted_words :
    wordsV8.all (fun w => (tick w (writeV { base with i := 0x300 } 1 2)).any fun t =>
      t.pc == 0x202 && readV t 0 == 0x00 && readV t 1 == 0x02 && readV t 15 == 0x00 && t.i == 0x300 &&
        t.sp == 0x0FA0 && !t.drawDirty) = true := by
  decide

/-- A draw's origin and sprite bytes at `0x300`. -/
def drawing (v0 v1 : Byte) (bs : List Byte) : State :=
  writeV (writeV { bytesAt 0x300 bs with i := 0x300 } 0 v0) 1 v1

/-- Table V7, rows 1, 2, 3, 10, 14: bit 7 is leftmost and bit 0 rightmost, the corner is reachable, a collision, and
the origin taken from the old VF. -/
theorem test_drw_draws :
    (tick 0xD011 (drawing 0 0 [0x80])).map
      (fun t => (t.disp.get (0, 0), t.disp.get (7, 0), readV t 15, t.drawDirty, t.pc)) =
      some (true, false, 0x00, true, 0x202) ∧
    (tick 0xD011 (drawing 0 0 [0x01])).map (fun t => (t.disp.get (0, 0), t.disp.get (7, 0))) = some (false, true) ∧
    (tick 0xD011 (drawing 56 31 [0xFF])).map (fun t => (t.disp.get (56, 31), t.disp.get (63, 31))) =
      some (true, true) ∧
    (tick 0xD011 { drawing 2 3 [0xC0] with disp := base.disp.toggle (2, 3) }).map
      (fun t => (t.disp.get (2, 3), t.disp.get (3, 3), readV t 15)) = some (false, true, 0x01) ∧
    (tick 0xDF01 (writeV (drawing 0 0 [0x80]) 15 5)).map (fun t => (t.disp.get (5, 0), readV t 15)) =
      some (true, 0x00) := by
  decide

/-- Table V7, rows 4, 6, 15, 17, 18: the faults, their order, and nothing else changed. -/
theorem test_drw_faults :
    (tick 0xD011 (drawing 57 31 [0xFF])).map
      (fun t => (t.runState, t.disp.get (57, 31), t.drawDirty, t.pc)) =
      some (.faulted (.drawOutOfRange 64 31), false, false, 0x200) ∧
    (tick 0xD012 (drawing 0 31 [0x80, 0x80])).map (fun t => (t.runState, t.disp.get (0, 31))) =
      some (.faulted (.drawOutOfRange 0 32), false) ∧
    (tick 0xD012 { base with i := 0xFFF }).map (·.runState) = some (.faulted (.addressOutOfRange 0x1000)) ∧
    (tick 0xD012 (writeV { bytesAt 0xFFF [0x80] with i := 0xFFF } 0 64)).map (·.runState) =
      some (.faulted (.drawOutOfRange 64 0)) ∧
    (tick 0xD012 (writeV { base with i := 0xFFF } 0 64)).map (·.runState) =
      some (.faulted (.addressOutOfRange 0x1000)) := by
  decide

/-- Table V9: the last word advances to `0x1000`, which halts on a tick of its own; `0xFFF` faults; a stopped machine
ignores ticks. -/
theorem test_end_of_memory :
    (after (step { base with pc := 0xFFE })).map (fun t => (t.pc, t.runState)) = some (0x1000, .running) ∧
    (after (step { base with pc := 0x1000 })).map (fun t => (t.pc, t.runState)) = some (0x1000, .halted) ∧
    (after (step { base with pc := 0xFFF })).map (fun t => (t.pc, t.runState)) =
      some (0xFFF, .faulted (.addressOutOfRange 0x1000)) ∧
    (after (step { base with runState := .halted })).map (fun t => (t.pc, t.runState)) = some (0x200, .halted) := by
  decide

/-- Table V10: a load of two bytes, an acknowledgement, a refused load. -/
theorem test_host :
    (loadROM [0x12, 0x00] State.reset).map (fun t => (t.mem.lookup 0x200, t.mem.lookup 0x201, t.mem)) =
      some (0x12, 0x00, [(0x200, 0x12)]) ∧
    (ackDisplay State.reset).drawDirty = false ∧
    (loadROM (List.replicate 3585 0) State.reset).isNone = true := by
  refine ⟨by decide, rfl, ?_⟩
  rw [loadROM, List.length_replicate]
  rfl

/-- A store of what an unlisted address reads as leaves no entry. -/
theorem test_store_is_canonical :
    (Memory.store [] 0x300 0x00) = [] ∧ (Memory.store [(0x300, 0x01)] 0x300 0x00) = [] ∧
    (Memory.store [(0x300, 0x01)] 0x2FF 0x02) = [(0x2FF, 0x02), (0x300, 0x01)] := by
  decide

/-- The trace event of a completed cycle, and none for a halt (R184). -/
theorem test_trace :
    (traceEvent (bytesAt 0x200 [0x12, 0x06])) = some ⟨0x200, 0x1206, "JP"⟩ ∧
    (traceEvent { base with pc := 0x1000 }) = none := by
  decide

/-! Witnesses: for each statement with hypotheses, a case that meets them together, clause by clause. -/

theorem witness_DecodeOfEncodeIsTheInstruction : WellFormed (.unx0 0x0EE) ∧ WellFormed (.drw 15 15 15) := by decide

theorem witness_EveryWordIsTheWordOfExactlyOneInstruction : WellFormed (.jp 0x206) ∧ encode (.jp 0x206) = 0x1206 := by
  decide

/-- The lowest and the highest word of each line of the map; in class 0 the words beside `0x00E0`. -/
theorem witness_DecodeFollowsTheOpcodeMap :
    (0x00DF#16 ≠ 0x00E0 ∧ (0x00DF#16).toNat / 4096 = 0 ∧ (0x0FFF#16).toNat / 4096 = 0) ∧
    (List.range 16).all (fun k => (BitVec.ofNat 16 (k * 4096)).toNat / 4096 == k &&
      (BitVec.ofNat 16 (k * 4096 + 4095)).toNat / 4096 == k) = true := by
  decide

theorem witness_MemReadReturnsTheBytesOrTheLowestBadAddress :
    (1 ≤ 2 ∧ 0xFFE + 2 ≤ 0x1000) ∧ (1 ≤ 2 ∧ 0x1000 < 0xFFF + 2) ∧ (1 ≤ 1 ∧ 0x1000 < 0x1000 + 1) := by decide

theorem witness_CanonicalMemoriesThatReadAlikeAreEqual :
    Memory.wf [(0x200, 0x12), (0xFFF, 0x01)] = true ∧
    ∀ a, readByte [(0x200, 0x12), (0xFFF, 0x01)] a =
      readByte ((Memory.store [] 0xFFF 0x01).store 0x200 0x12) a :=
  ⟨by decide, fun _ => rfl⟩

theorem witness_FetchReadsTwoBytesHighFirst :
    (base.runState = .running ∧ base.pc.toNat ≤ 0xFFE) ∧
    (({ base with pc := 0xFFE } : State).runState = .running ∧ ({ base with pc := 0xFFE } : State).pc.toNat ≤ 0xFFE) ∧
    ({ base with pc := 0x3A1 } : State).pc.toNat ≤ 0xFFE := by
  decide

theorem witness_StepRunsTheDecodedInstruction :
    (bytesAt 0x200 [0x12, 0x06]).runState = .running ∧ readByte (bytesAt 0x200 [0x12, 0x06]).mem 0x200 = .ok 0x12 ∧
    readByte (bytesAt 0x200 [0x12, 0x06]).mem 0x201 = .ok 0x06 ∧ decodeBytes [0x12, 0x06] = .ok (.jp 0x206, []) :=
  ⟨rfl, rfl, rfl, rfl⟩

theorem witness_HaltExactlyWhenPcIsPastTheEnd :
    (({ base with pc := 0x1000 } : State).runState = .running ∧ 0x1000 ≤ ({ base with pc := 0x1000 } : State).pc.toNat) ∧
    ({ base with pc := 0xFFFF } : State).runState = .running := by
  decide

theorem witness_FetchAtTheLastByteFaults :
    ({ base with pc := 0xFFF } : State).runState = .running ∧ ({ base with pc := 0xFFF } : State).pc.toNat = 0xFFF := by
  decide

theorem witness_TickCompletesHaltsOrFaultsPrecisely : base.runState = .running := rfl

theorem witness_StoppedMachineIgnoresTicks :
    ({ base with runState := .halted } : State).runState ≠ .running ∧
    ∀ t ∈ [Transaction.tick, .ackDisplay, .tick], t = .tick ∨ t = .ackDisplay := by
  decide

/-- The two ways of R66 and R174: the fetch at the last byte, and a draw (table V7 row 4). -/
theorem witness_OnlyDrawAndTheLastByteFault :
    (∃ t c, ({ base with pc := 0xFFF } : State).runState = .running ∧ step { base with pc := 0xFFF } = .next t ∧
      t.runState = .faulted c) ∧
    ∃ t c, ((drawing 57 31 [0xFF]).withFetchWord 16 0xD011).runState = .running ∧
      step ((drawing 57 31 [0xFF]).withFetchWord 16 0xD011) = .next t ∧ t.runState = .faulted c :=
  ⟨⟨_, _, rfl, rfl, rfl⟩, ⟨_, .drawOutOfRange 64 31, rfl, rfl, by decide⟩⟩

theorem witness_InstructionsOtherThanDrawRaiseNothing : ∀ x y n, Instr.cls ≠ .drw x y n := fun _ _ _ h => by cases h

/-- A jump, an instruction that is none, and a halt. -/
theorem witness_ProgramCounterIsUpdatedOncePerCycle :
    (∃ t, base.runState = .running ∧ exec (.jp 0xFFF) base = .next t ∧ t.runState = .running) ∧
    (∃ t, base.runState = .running ∧ exec .cls base = .next t ∧ t.runState = .running ∧ ∀ nnn, Instr.cls ≠ .jp nnn) ∧
    ∃ t, step { base with pc := 0x1000 } = .next t ∧ t.runState ≠ .running :=
  ⟨⟨_, rfl, rfl, rfl⟩, ⟨_, rfl, rfl, rfl, fun _ h => by cases h⟩, ⟨_, rfl, by decide⟩⟩

/-- Two states with the same `pc` and memory and different registers, both completing. -/
theorem witness_NextPcDependsOnPcAndMemoryAlone :
    ∃ t t', base.runState = .running ∧ (writeV base 3 7).runState = .running ∧ base.pc = (writeV base 3 7).pc ∧
      base.mem = (writeV base 3 7).mem ∧ step base = .next t ∧ step (writeV base 3 7) = .next t' ∧
      t.runState = .running ∧ t'.runState = .running :=
  ⟨_, _, rfl, rfl, rfl, rfl, rfl, rfl, rfl, rfl⟩

theorem witness_JumpSetsPcToItsOperand :
    (0x1FFF : Word).toNat = 0x1000 + (0xFFF : Addr).toNat ∧ base.runState = .running ∧ (0xFFF : Addr) = 0xFFF := by
  decide

theorem witness_LoadImmediateWritesTheRegister :
    (0x6FFF : Word).toNat = 0x6000 + (15 : RegIx).val * 256 + (0xFF : Byte).toNat := by decide

theorem witness_AddImmediateWrapsAndSetsNoFlag :
    (0x7FFF : Word).toNat = 0x7000 + (15 : RegIx).val * 256 + (0xFF : Byte).toNat := by decide

theorem witness_LoadIndexWritesTheZeroExtendedAddress : (0xAFFF : Word).toNat = 0xA000 + (0xFFF : Addr).toNat := by
  decide

theorem witness_JumpToSelfChangesNothing :
    (bytesAt 0x200 [0x12, 0x00]).runState = .running ∧ readByte (bytesAt 0x200 [0x12, 0x00]).mem 0x200 = .ok 0x12 ∧
    readByte (bytesAt 0x200 [0x12, 0x00]).mem 0x201 = .ok 0x00 ∧ decodeBytes [0x12, 0x00] = .ok (.jp 0x200, []) ∧
    (0x200 : Addr).toNat = (bytesAt 0x200 [0x12, 0x00]).pc.toNat :=
  ⟨rfl, rfl, rfl, rfl, rfl⟩

theorem witness_UnexecutedInstructionsOnlyAdvancePc :
    Instr.unxF 0x11E ∈ [Instr.unx0 0x11E, .unx2 0x11E, .unx3 0x11E, .unx4 0x11E, .unx5 0x11E, .unx8 0x11E, .unx9 0x11E,
      .unxB 0x11E, .unxC 0x11E, .unxE 0x11E, .unxF 0x11E] := by
  decide

theorem witness_EveryOtherWordIsANoOperation :
    [0x00E1#16, 0x00DF#16, 0x0FFF#16, 0x2000#16, 0x5FFF#16, 0x9FFF#16, 0xB000#16, 0xCFFF#16, 0xE000#16, 0xFFFF#16].all
      (fun w => w != 0x00E0 && w.toNat / 4096 != 0x1 && w.toNat / 4096 != 0x6 && w.toNat / 4096 != 0x7 &&
        w.toNat / 4096 != 0xA && w.toNat / 4096 != 0xD) = true := by
  decide

/-- Table V7 row 3: the bottom-right corner. -/
theorem witness_drawable_corner : Drawable (drawing 56 31 [0xFF]) 0 1 1 := scanSprite_ok_iff.mp ⟨_, rfl⟩

/-- Table V7 row 9: an origin outside the grid under a blank row. -/
theorem witness_drawable_blank : Drawable (drawing 0xFF 0xFF [0x00]) 0 1 1 := scanSprite_ok_iff.mp ⟨_, rfl⟩

/-- A cell under a set bit that is on (table V7 row 10), a draw over cells that are all off (row 1), and a cell under
no set bit. -/
theorem witness_DrawTogglesTheCellsUnderSetBits :
    (Drawable { drawing 2 3 [0xC0] with disp := base.disp.toggle (2, 3) } 0 1 1 ∧
      UnderSetBit { drawing 2 3 [0xC0] with disp := base.disp.toggle (2, 3) } 0 1 1 (2, 3) ∧
      Display.get (base.disp.toggle (2, 3)) (2, 3) = true) ∧
    (Drawable (drawing 0 0 [0x80]) 0 1 1 ∧
      (∀ p, UnderSetBit (drawing 0 0 [0x80]) 0 1 1 p → (drawing 0 0 [0x80]).disp.get p = false) ∧
      ¬ UnderSetBit (drawing 0 0 [0x80]) 0 1 1 (1, 0)) :=
  ⟨⟨scanSprite_ok_iff.mp ⟨_, rfl⟩, ⟨0, 0, by decide, by decide, ⟨0xC0, rfl, by decide⟩, by decide, by decide⟩, by decide⟩,
    scanSprite_ok_iff.mp ⟨_, rfl⟩, fun p _ => Display.get_blank p,
    fun h => absurd ((mem_scanSprite (ps := [(0, 0)]) rfl _).mpr h) (by decide)⟩

/-- Table V7 row 15: row 0 blank at `0xFFF`, row 1 beyond memory. -/
theorem witness_DrawRaisesTheFirstBadAddress :
    1 < (2 : Fin 16).val ∧ (∀ q, q < 1 → RowDrawable { base with i := 0xFFF } 0 1 q) ∧
    0xFFF < ({ base with i := 0xFFF } : State).i.toNat + 1 :=
  ⟨by decide, rowsClean_iff.mp (scanRows_ok_iff.mp ⟨[], rfl⟩), by decide⟩

/-- Table V7 row 4: the last column offset is the first one outside. -/
theorem witness_DrawRaisesTheFirstBadCoordinate :
    0 < (1 : Fin 16).val ∧ 7 < 8 ∧ (∀ q, q < 0 → RowDrawable (drawing 57 31 [0xFF]) 0 1 q) ∧
    SpriteBitSet (drawing 57 31 [0xFF]) 0 7 ∧
    (63 < (readV (drawing 57 31 [0xFF]) 0).toNat + 7 ∨ 31 < (readV (drawing 57 31 [0xFF]) 1).toNat + 0) ∧
    ∀ b, b < 7 → SpriteBitSet (drawing 57 31 [0xFF]) 0 b →
      (readV (drawing 57 31 [0xFF]) 0).toNat + b ≤ 63 ∧ (readV (drawing 57 31 [0xFF]) 1).toNat + 0 ≤ 31 :=
  ⟨by decide, by decide, fun q h => absurd h (Nat.not_lt_zero q), ⟨0xFF, rfl, by decide⟩, by decide,
    fun b hb _ => ⟨by have h : (readV (drawing 57 31 [0xFF]) 0).toNat = 57 := rfl
                      omega, by decide⟩⟩

/-- Table V7 row 6: a row below the grid, met in the second row. -/
theorem witness_DrawRaisesTheFirstBadCoordinate_below :
    1 < (2 : Fin 16).val ∧ 0 < 8 ∧ (∀ q, q < 1 → RowDrawable (drawing 0 31 [0x80, 0x80]) 0 1 q) ∧
    SpriteBitSet (drawing 0 31 [0x80, 0x80]) 1 0 ∧
    (63 < (readV (drawing 0 31 [0x80, 0x80]) 0).toNat + 0 ∨ 31 < (readV (drawing 0 31 [0x80, 0x80]) 1).toNat + 1) ∧
    ∀ b, b < 0 → SpriteBitSet (drawing 0 31 [0x80, 0x80]) 1 b →
      (readV (drawing 0 31 [0x80, 0x80]) 0).toNat + b ≤ 63 ∧ (readV (drawing 0 31 [0x80, 0x80]) 1).toNat + 1 ≤ 31 :=
  ⟨by decide, by decide, rowsClean_iff.mp (scanRows_ok_iff.mp ⟨[(0, 31)], rfl⟩), ⟨0x80, rfl, by decide⟩, by decide,
    fun b h => absurd h (Nat.not_lt_zero b)⟩

theorem witness_DrawFaultsExactlyWhenARowIsNotDrawable : (drawing 57 31 [0xFF]).runState = .running := rfl

/-- A first draw that leaves its own coordinates: `V0` and `V1`, and VF where it was 0 and nothing collided. -/
theorem witness_DrawingTwiceRestoresTheDisplay :
    (∃ t, Drawable (drawing 2 3 [0xC0]) 0 1 1 ∧ exec (.drw 0 1 1) (drawing 2 3 [0xC0]) = .next t ∧
      readV t 0 = readV (drawing 2 3 [0xC0]) 0 ∧ readV t 1 = readV (drawing 2 3 [0xC0]) 1) ∧
    ∃ t, Drawable (drawing 2 3 [0xC0]) 15 1 1 ∧ exec (.drw 15 1 1) (drawing 2 3 [0xC0]) = .next t ∧
      readV t 15 = readV (drawing 2 3 [0xC0]) 15 ∧ readV t 1 = readV (drawing 2 3 [0xC0]) 1 :=
  ⟨⟨_, scanSprite_ok_iff.mp ⟨_, rfl⟩, rfl, by decide, by decide⟩,
    ⟨_, scanSprite_ok_iff.mp ⟨_, rfl⟩, rfl, by decide, by decide⟩⟩

/-- The same bytes at two addresses, on two displays. -/
theorem witness_DrawnCellsDependOnTheBytesAtIAlone :
    Drawable (drawing 2 3 [0xC0]) 0 1 1 ∧
    Drawable { drawing 2 3 [0x00, 0xC0] with i := 0x301, disp := base.disp.toggle (2, 3) } 0 1 1 ∧
    readV (drawing 2 3 [0xC0]) 0 = readV { drawing 2 3 [0x00, 0xC0] with i := 0x301, disp := base.disp.toggle (2, 3) } 0 ∧
    readV (drawing 2 3 [0xC0]) 1 = readV { drawing 2 3 [0x00, 0xC0] with i := 0x301, disp := base.disp.toggle (2, 3) } 1 ∧
    ∀ r, r < (1 : Fin 16).val → readByte (drawing 2 3 [0xC0]).mem (0x300 + r) =
      readByte (drawing 2 3 [0x00, 0xC0]).mem (0x301 + r) :=
  ⟨scanSprite_ok_iff.mp ⟨_, rfl⟩, scanSprite_ok_iff.mp ⟨_, rfl⟩, by decide, by decide,
    fun r h => by
      have : r = 0 := Nat.lt_one_iff.mp h
      subst this; rfl⟩

/-- Legal states: after reset, halted, and faulted with the largest pair R172 allows. -/
theorem witness_StepKeepsStatesLegal :
    Legal State.reset ∧ Legal { base with pc := 0x1000, runState := .halted } ∧
    Legal { base with pc := 0xFFE, runState := .faulted (.drawOutOfRange 262 269) } ∧
    Legal { base with pc := 0xFFF, runState := .faulted (.addressOutOfRange 0x1000) } :=
  ⟨⟨rfl, by decide, by decide, rfl, trivial⟩, ⟨rfl, by decide, by decide, rfl, rfl⟩,
    ⟨rfl, by decide, by decide, rfl, by decide, by decide, by decide, by decide⟩,
    ⟨rfl, by decide, by decide, rfl, rfl, by decide⟩⟩

theorem witness_HostTransactionsKeepStatesLegal : Legal State.reset := ⟨rfl, by decide, by decide, rfl, trivial⟩

theorem witness_NoInstructionWritesMemory :
    (∃ t, exec (.drw 0 1 1) (drawing 2 3 [0xC0]) = .next t) ∧ ∃ t, step base = .next t := ⟨⟨_, rfl⟩, ⟨_, rfl⟩⟩

theorem witness_LoadedImageStaysUntilReset :
    [0x12, 0x00].length ≤ 3584 ∧ Transaction.reset ∉ [Transaction.tick, .ackDisplay, .tick] ∧
    Protocol .beforeReset [.reset, .loadROM [0x12, 0x00], .tick, .ackDisplay, .tick] = true ∧
    1 < [0x12, 0x00].length := by
  decide

theorem witness_StackPointerIsNeitherReadNorWritten : ∃ t, exec (.unx2 0x300) base = .next t := ⟨_, rfl⟩

theorem witness_DrawDirtyIsRaisedOnlyByDisplayInstructions : ∃ t, exec .cls base = .next t := ⟨_, rfl⟩

/-- A register that changes, and `I` changing. -/
theorem witness_OnlyTheListedInstructionsWriteARegister :
    (∃ t, exec (.ldVx 3 0x07) base = .next t ∧ readV t 3 ≠ readV base 3) ∧
    ∃ t, exec (.ldI 0x20C) base = .next t ∧ t.i ≠ base.i :=
  ⟨⟨_, rfl, by decide⟩, ⟨_, rfl, by decide⟩⟩

/-- Program P5: after reset, memory from `0x200` is zero. -/
theorem witness_ZeroMemorySlidesToTheHalt :
    base.runState = .running ∧ base.pc.toNat ≤ 0x1000 ∧ base.pc.toNat % 2 = 0 ∧
    ∀ a, base.pc.toNat ≤ a → a ≤ 0xFFF → readByte base.mem a = .ok 0x00 :=
  ⟨rfl, by decide, by decide, fun a h h' => by
    have h2 : 0x200 ≤ a := h
    rw [readByte_of_lt (by omega)]
    simp [base, State.reset, Memory.lookup, Memory.unlisted_above h2]⟩

/-- The last byte of the font region, and both ends of the memory above it. -/
theorem witness_ResetGivesEveryComponentItsValue :
    0x1FF < 0x200 ∧ (0x200 ≤ 0x200 ∧ 0x200 ≤ 0xFFF) ∧ 0x200 ≤ 0xFFF ∧ 0xFFF ≤ 0xFFF := by decide

theorem witness_ResetMemoryHoldsTheFont :
    Config.FontIs ((List.range 512).map Config.fontByte) ∧ 0xFFF ≤ 0xFFF :=
  ⟨⟨by simp, fun a h => by simp [List.getD_eq_getElem?_getD, List.getElem?_map, List.getElem?_range h]⟩, le_refl _⟩

theorem witness_LoadCopiesTheImageAndNothingElse :
    State.reset.mem.wf = true ∧ (List.replicate 3584 (0x5A : Byte)).length ≤ 3584 ∧
    3583 < (List.replicate 3584 (0x5A : Byte)).length := by
  rw [List.length_replicate]
  exact ⟨rfl, by decide, by decide⟩

theorem witness_OversizedImageIsRefusedWhole : 3584 < (List.replicate 3585 (0x00 : Byte)).length := by
  rw [List.length_replicate]; decide

/-- An empty image and a longer one. -/
theorem witness_FirstTickExecutesTheImagesFirstWord :
    (∃ s, launch [] = some s) ∧ ∃ s, launch [0x12, 0x06] = some s := ⟨⟨_, rfl⟩, ⟨_, rfl⟩⟩

theorem witness_LinearDisplayIsRowAfterRow : (2047 : Fin 2048).val = (31 : Fin 32).val * 64 + (63 : Fin 64).val := by
  decide

/-- A running machine, a stopped one and one whose `pc` is past the end. -/
theorem witness_PlacedWordIsTheNextInstruction :
    State.reset.mem.wf = true ∧ ({ base with pc := 0x1000, runState := .halted } : State).mem.wf = true := ⟨rfl, rfl⟩

end Sys2Proof.Tests
end

/-! The opcode map of R85: which line of it a word's class selects, and which lines are the unexecuted rows (R150). -/

namespace Sys2Proof

theorem fieldCls_eq_of_toNat_div {w : Word} {k : Fin 16} (h : w.toNat / 4096 = k) : fieldCls w = k :=
  Fin.ext ((fieldCls_toNat w).trans h)

/-- Outside class 0 the class alone selects the line: the one refinement, `0x00E0`, is a word of class 0 (R86). -/
theorem decode_of_nonzero_class {w : Word} (k : Fin 16) (hk : k ≠ 0) (h : w.toNat / 4096 = k) :
    decode w = opcodeMap[k] w := by
  refine decode_of_cls (fieldCls_eq_of_toNat_div h) ?_
  rintro rfl
  exact hk (Fin.ext h.symm)

/-- The lines of the opcode map that no handler executes are all but those of classes 1, 6, 7, A and D. -/
theorem unexecuted_opcodeMap (k : Fin 16) (w : Word) :
    (opcodeMap[k] w).unexecuted = decide (k ∉ [0x1, 0x6, 0x7, 0xA, 0xD]) := by
  fin_cases k <;> rfl

theorem unexecuted_decode {w : Word} (hw : w ≠ 0x00E0) (h : fieldCls w ∉ [0x1, 0x6, 0x7, 0xA, 0xD]) :
    (decode w).unexecuted = true := by
  rw [decode_of_cls rfl hw, unexecuted_opcodeMap, decide_eq_true h]

/-- Settles O4: each field is the number R82 gives it, and the two identities are arithmetic on those numbers. -/
theorem fieldsAreTheBitFieldsOfTheWord : Obligations.FieldsAreTheBitFieldsOfTheWord := by
  intro w
  refine ⟨fieldCls_toNat w, fieldX_toNat w, fieldY_toNat w, fieldN_toNat w, fieldNN_toNat w, fieldNNN_toNat w, ?_, ?_⟩
  · rw [fieldNN_toNat, fieldY_toNat, fieldN_toNat]; omega
  · rw [fieldNNN_toNat, fieldX_toNat, fieldNN_toNat]; omega

/-- Settles O3: the first two lines by the test on the whole word, every other by its class. -/
theorem decodeFollowsTheOpcodeMap : Obligations.DecodeFollowsTheOpcodeMap := by
  intro w
  refine ⟨?_, fun hw h => decode_of_cls (k := 0x0) (fieldCls_eq_of_toNat_div h) hw,
    decode_of_nonzero_class 0x1 (by decide), decode_of_nonzero_class 0x2 (by decide),
    decode_of_nonzero_class 0x3 (by decide), decode_of_nonzero_class 0x4 (by decide),
    decode_of_nonzero_class 0x5 (by decide), decode_of_nonzero_class 0x6 (by decide),
    decode_of_nonzero_class 0x7 (by decide), decode_of_nonzero_class 0x8 (by decide),
    decode_of_nonzero_class 0x9 (by decide), decode_of_nonzero_class 0xA (by decide),
    decode_of_nonzero_class 0xB (by decide), decode_of_nonzero_class 0xC (by decide),
    decode_of_nonzero_class 0xD (by decide), decode_of_nonzero_class 0xE (by decide),
    decode_of_nonzero_class 0xF (by decide)⟩
  rintro rfl
  rfl

end Sys2Proof

/-! What an instruction does to `pc` (R89), and the no-operations of R87 from their words. -/

namespace Sys2Proof.Machine

theorem exec_of_unexecuted {i : Instr} (h : i.unexecuted = true) (s : State) : exec i s = .next (advance s) := by
  cases i with
  | cls | jp | ldVx | addVx | ldI | drw => cases h
  | unx0 | unx2 | unx3 | unx4 | unx5 | unx8 | unx9 | unxB | unxC | unxE | unxF => rfl

/-- The end of an instruction (R89): `JP` sets `pc`, any other that completes advances it, and one that does not
complete has raised, which leaves all but the run state. -/
theorem exec_pc_cases {i : Instr} {s t : State} (h : exec i s = .next t) :
    (t.runState = s.runState ∧ ∃ nnn, i = .jp nnn ∧ t.pc = zext16 nnn) ∨
    (t.runState = s.runState ∧ (∀ nnn, i ≠ .jp nnn) ∧ t.pc = s.pc + 2) ∨
    (∃ c, t = raise c s) := by
  rcases exec_cases i s with ⟨rfl, e⟩ | ⟨nnn, rfl, e⟩ | ⟨x, nn, rfl, e⟩ | ⟨x, nn, rfl, e⟩ | ⟨nnn, rfl, e⟩ |
    ⟨x, y, n, ps, rfl, -, e⟩ | ⟨x, y, n, c, rfl, -, e⟩ | ⟨hu, e⟩ <;> cases e.symm.trans h
  · exact .inr (.inl ⟨rfl, nofun, rfl⟩)
  · exact .inl ⟨rfl, nnn, rfl, rfl⟩
  · exact .inr (.inl ⟨rfl, nofun, rfl⟩)
  · exact .inr (.inl ⟨rfl, nofun, rfl⟩)
  · exact .inr (.inl ⟨rfl, nofun, rfl⟩)
  · exact .inr (.inl ⟨rfl, nofun, rfl⟩)
  · exact .inr (.inr ⟨c, rfl⟩)
  · refine .inr (.inl ⟨rfl, ?_, rfl⟩)
    rintro nnn rfl
    cases hu

end Sys2Proof.Machine

namespace Sys2Proof

open Machine

/-- Settles O17: a completed instruction has not raised, and a tick that stops the machine has halted it or raised. -/
theorem programCounterIsUpdatedOncePerCycle : Obligations.ProgramCounterIsUpdatedOncePerCycle := by
  refine ⟨fun i s t _ h ht => ?_, fun s t h ht => ?_⟩
  · rcases exec_pc_cases h with ⟨-, nnn, rfl, hpc⟩ | ⟨-, hi, hpc⟩ | ⟨c, rfl⟩
    · refine ⟨?_, fun hi => absurd rfl (hi nnn)⟩
      rintro _ ⟨⟩
      rw [hpc, zext16_toNat]
    · exact ⟨fun nnn e => absurd e (hi nnn), fun _ => hpc ▸ BitVec.toNat_add s.pc 2⟩
    · cases ht
  · rcases step_cases s with ⟨-, e⟩ | ⟨-, -, e⟩ | ⟨-, -, e⟩ | ⟨hs, -, e⟩ <;> rw [e] at h
    · cases h; rfl
    · cases h; exact halt_pc s
    · cases h; exact raise_pc s _
    · rcases exec_pc_cases h with ⟨hr, -⟩ | ⟨hr, -⟩ | ⟨c, rfl⟩
      · exact absurd (hr.trans hs) ht
      · exact absurd (hr.trans hs) ht
      · exact raise_pc s c

/-- Settles O26: such a word decodes to an unexecuted row, and those only advance `pc`. -/
theorem everyOtherWordIsANoOperation : Obligations.EveryOtherWordIsANoOperation := by
  intro w s hw h1 h6 h7 hA hD
  refine exec_of_unexecuted (unexecuted_decode hw ?_) s
  simp only [List.mem_cons, List.not_mem_nil, Fin.ext_iff, fieldCls_toNat]
  rintro (h | h | h | h | h | h)
  exacts [h1 h, h6 h, h7 h, hA h, hD h, h]

end Sys2Proof

/-! Register-immediate instructions: the fields of a format-`I` and of a format-`A` word given as a number (R83), and
the frame of an instruction that writes one register. -/

namespace Sys2Proof

theorem fields_of_formatI {w : Word} {k : Fin 16} {x : RegIx} {nn : Byte}
    (h : w.toNat = k.val * 4096 + x.val * 256 + nn.toNat) :
    w.toNat / 4096 = k ∧ fieldX w = x ∧ fieldNN w = nn := by
  refine ⟨?_, Fin.ext ?_, BitVec.eq_of_toNat_eq ?_⟩
  · omega
  · rw [fieldX_toNat]; omega
  · rw [fieldNN_toNat]; omega

theorem fields_of_formatA {w : Word} {k : Fin 16} {nnn : Addr} (h : w.toNat = k.val * 4096 + nnn.toNat) :
    w.toNat / 4096 = k ∧ fieldNNN w = nnn := by
  refine ⟨?_, BitVec.eq_of_toNat_eq ?_⟩
  · omega
  · rw [fieldNNN_toNat]; omega

theorem decode_eq_ldVx {w : Word} {x : RegIx} {nn : Byte} (h : w.toNat = 0x6000 + x.val * 256 + nn.toNat) :
    decode w = .ldVx x nn := by
  obtain ⟨hk, rfl, rfl⟩ := fields_of_formatI (k := 0x6) h
  exact decode_of_nonzero_class 0x6 (by decide) hk

theorem decode_eq_addVx {w : Word} {x : RegIx} {nn : Byte} (h : w.toNat = 0x7000 + x.val * 256 + nn.toNat) :
    decode w = .addVx x nn := by
  obtain ⟨hk, rfl, rfl⟩ := fields_of_formatI (k := 0x7) h
  exact decode_of_nonzero_class 0x7 (by decide) hk

theorem decode_eq_ldI {w : Word} {nnn : Addr} (h : w.toNat = 0xA000 + nnn.toNat) : decode w = .ldI nnn := by
  obtain ⟨hk, rfl⟩ := fields_of_formatA (k := 0xA) h
  exact decode_of_nonzero_class 0xA (by decide) hk

end Sys2Proof

namespace Sys2Proof.Machine

theorem advance_pc_toNat (s : State) : (advance s).pc.toNat = (s.pc.toNat + 2) % 65536 := BitVec.toNat_add s.pc 2

/-- All that `LD Vx` and `ADD Vx` share: whatever byte is written to the one register, this is what else the
completed instruction leaves (R22, R25). -/
theorem advance_writeV_frame (s : State) (x : RegIx) (b : Byte) :
    SameRegistersBut x s (advance (writeV s x b)) ∧ (advance (writeV s x b)).pc.toNat = (s.pc.toNat + 2) % 65536 ∧
    (advance (writeV s x b)).i = s.i ∧ (advance (writeV s x b)).sp = s.sp ∧
    SameDisplay s (advance (writeV s x b)) ∧ (advance (writeV s x b)).drawDirty = s.drawDirty ∧
    (advance (writeV s x b)).runState = s.runState ∧ SameMemory s (advance (writeV s x b)) :=
  ⟨fun _ hr => readV_writeV_other s b hr, advance_pc_toNat _, rfl, rfl, fun _ => rfl, rfl, rfl, fun _ => rfl⟩

end Sys2Proof.Machine

namespace Sys2Proof

open Machine

/-- Settles O21: the destination reads as the immediate, and the rest is the frame of a one-register write. -/
theorem loadImmediateWritesTheRegister : Obligations.LoadImmediateWritesTheRegister := fun x nn s =>
  ⟨fun _ => decode_eq_ldVx, advance (writeV s x nn), rfl, readV_writeV_self s x nn, advance_writeV_frame s x nn⟩

/-- Settles O22: addition of bytes is addition modulo 256, and the frame is the one of `LD Vx`, so that VF is no flag. -/
theorem addImmediateWrapsAndSetsNoFlag : Obligations.AddImmediateWrapsAndSetsNoFlag := by
  intro x nn s
  refine ⟨fun _ => decode_eq_addVx, advance (writeV s x (readV s x + nn)), rfl, ?_, advance_writeV_frame s x _⟩
  rw [readV_advance, readV_writeV_self, BitVec.toNat_add]

/-- Settles O23: `zext_16` keeps the number, and no component but `I` and `pc` is written. -/
theorem loadIndexWritesTheZeroExtendedAddress : Obligations.LoadIndexWritesTheZeroExtendedAddress := fun nnn s =>
  ⟨fun _ => decode_eq_ldI, advance { s with i := zext16 nnn }, rfl, zext16_toNat nnn, fun _ => rfl,
    advance_pc_toNat _, rfl, fun _ => rfl, rfl, rfl, fun _ => rfl⟩

end Sys2Proof

/-! The unexecuted rows (R150), named one by one: the list holds nothing else, and advancing `pc` is all they do. -/

namespace Sys2Proof

theorem unexecuted_of_mem_rows {nnn : Addr} {i : Instr}
    (h : i ∈ [.unx0 nnn, .unx2 nnn, .unx3 nnn, .unx4 nnn, .unx5 nnn, .unx8 nnn, .unx9 nnn, .unxB nnn, .unxC nnn,
      .unxE nnn, .unxF nnn]) : i.unexecuted = true :=
  List.all_eq_true.mp (by rfl) i h

open Machine

/-- Settles O25: every listed row is unexecuted, whatever its operand, and such a row answers with `advance`, which
writes `pc` alone. -/
theorem unexecutedInstructionsOnlyAdvancePc : Obligations.UnexecutedInstructionsOnlyAdvancePc := fun _ s _ hi =>
  ⟨advance s, exec_of_unexecuted (unexecuted_of_mem_rows hi) s, advance_pc_toNat s, fun _ => rfl, rfl, rfl,
    fun _ => rfl, rfl, rfl, fun _ => rfl⟩

end Sys2Proof

/-! What `MemWrite` leaves to read, inside the written range and outside it (R54), and the load of an accepted image
(R206). -/

namespace Sys2Proof.Machine

theorem readByte_congr {m m' : Memory} {a : Nat} (h : m'.lookup a = m.lookup a) : readByte m' a = readByte m a := by
  rw [readByte, readByte, h]

theorem readByte_memWrite_inside {m : Memory} {a k : Nat} {bs : List Byte} (h : m.wf = true)
    (ha : a + bs.length ≤ 0x1000) (hk : k < bs.length) : readByte (memWrite m a bs) (a + k) = .ok bs[k] := by
  rw [readByte_of_lt (by omega), lookup_memWrite h ha, if_pos ⟨by omega, by omega⟩, Nat.add_sub_cancel_left,
    List.getD_eq_getElem _ _ hk]

theorem readByte_memWrite_outside {m : Memory} {a a' : Nat} {bs : List Byte} (h : m.wf = true)
    (ha : a + bs.length ≤ 0x1000) (ha' : a' < a ∨ a + bs.length ≤ a') :
    readByte (memWrite m a bs) a' = readByte m a' :=
  readByte_congr (by rw [lookup_memWrite h ha, if_neg (by omega)])

theorem transact_loadROM_of_le {image : List Byte} (h : image.length ≤ 3584) (s : State) :
    transact (.loadROM image) s = .next { s with mem := memWrite s.mem 0x200 image } := by
  rw [transact, loadROM, if_pos h]

end Sys2Proof.Machine

namespace Sys2Proof

open Machine

/-- Settles O45: an accepted image ends inside memory, so it is one `MemWrite` at `0x200`, and no other component is
written. -/
theorem loadCopiesTheImageAndNothingElse : Obligations.LoadCopiesTheImageAndNothingElse := by
  intro image s hwf hlen
  have hfit : 0x200 + image.length ≤ 0x1000 := by omega
  exact ⟨{ s with mem := memWrite s.mem 0x200 image }, transact_loadROM_of_le hlen s,
    fun _ hk => readByte_memWrite_inside hwf hfit hk, fun _ ha => readByte_memWrite_outside hwf hfit ha,
    fun _ => rfl, rfl, rfl, rfl, fun _ => rfl, rfl, rfl⟩

end Sys2Proof

/-! Encoding against decoding (R83, R85, R92). Format by format, the fields of a word that was put together are its
parts, and a word of a given class is put together again from its fields; the line of the opcode map then inverts the
encoder in both directions. -/

namespace Sys2Proof

open Laws.ClassNibble (rowClass)

@[simp] theorem fieldNNN_wordA (c : BitVec 4) (nnn : Addr) : fieldNNN (wordA c nnn) = nnn := by
  apply BitVec.eq_of_toNat_eq
  rw [fieldNNN_toNat, wordA_toNat]
  omega

@[simp] theorem fieldX_wordI (c : BitVec 4) (x : RegIx) (nn : Byte) : fieldX (wordI c x nn) = x := by
  apply Fin.ext
  rw [fieldX_toNat, wordI_toNat]
  omega

@[simp] theorem fieldNN_wordI (c : BitVec 4) (x : RegIx) (nn : Byte) : fieldNN (wordI c x nn) = nn := by
  apply BitVec.eq_of_toNat_eq
  rw [fieldNN_toNat, wordI_toNat]
  omega

@[simp] theorem fieldX_wordR (c : BitVec 4) (x y : RegIx) (n : Fin 16) : fieldX (wordR c x y n) = x := by
  apply Fin.ext
  rw [fieldX_toNat, wordR_toNat]
  omega

@[simp] theorem fieldY_wordR (c : BitVec 4) (x y : RegIx) (n : Fin 16) : fieldY (wordR c x y n) = y := by
  apply Fin.ext
  rw [fieldY_toNat, wordR_toNat]
  omega

@[simp] theorem fieldN_wordR (c : BitVec 4) (x y : RegIx) (n : Fin 16) : fieldN (wordR c x y n) = n := by
  apply Fin.ext
  rw [fieldN_toNat, wordR_toNat]
  omega

theorem toNat_div_of_fieldCls {w : Word} (c : BitVec 4) (h : fieldCls w = c.toFin) : w.toNat / 4096 = c.toNat :=
  (fieldCls_toNat w).symm.trans (congrArg Fin.val h)

theorem wordA_fields {w : Word} (c : BitVec 4) (h : fieldCls w = c.toFin) : wordA c (fieldNNN w) = w := by
  have hc := toNat_div_of_fieldCls c h
  apply BitVec.eq_of_toNat_eq
  rw [wordA_toNat, fieldNNN_toNat]
  omega

theorem wordI_fields {w : Word} (c : BitVec 4) (h : fieldCls w = c.toFin) :
    wordI c (fieldX w) (fieldNN w) = w := by
  have hc := toNat_div_of_fieldCls c h
  apply BitVec.eq_of_toNat_eq
  rw [wordI_toNat, fieldX_toNat, fieldNN_toNat]
  omega

theorem wordR_fields {w : Word} (c : BitVec 4) (h : fieldCls w = c.toFin) :
    wordR c (fieldX w) (fieldY w) (fieldN w) = w := by
  have hc := toNat_div_of_fieldCls c h
  apply BitVec.eq_of_toNat_eq
  rw [wordR_toNat, fieldX_toNat, fieldY_toNat, fieldN_toNat]
  omega

/-- The class nibble of an instruction's word is that of its row (R85). -/
theorem fieldCls_encode (i : Instr) : fieldCls (encode i) = rowClass i := by
  cases i with
  | cls => exact Laws.ClassNibble.cls
  | unx0 nnn => exact Laws.ClassNibble.unx0 nnn
  | jp nnn => exact Laws.ClassNibble.jp nnn
  | unx2 nnn => exact Laws.ClassNibble.unx2 nnn
  | unx3 nnn => exact Laws.ClassNibble.unx3 nnn
  | unx4 nnn => exact Laws.ClassNibble.unx4 nnn
  | unx5 nnn => exact Laws.ClassNibble.unx5 nnn
  | ldVx x nn => exact Laws.ClassNibble.ldVx x nn
  | addVx x nn => exact Laws.ClassNibble.addVx x nn
  | unx8 nnn => exact Laws.ClassNibble.unx8 nnn
  | unx9 nnn => exact Laws.ClassNibble.unx9 nnn
  | ldI nnn => exact Laws.ClassNibble.ldI nnn
  | unxB nnn => exact Laws.ClassNibble.unxB nnn
  | unxC nnn => exact Laws.ClassNibble.unxC nnn
  | drw x y n => exact Laws.ClassNibble.drw x y n
  | unxE nnn => exact Laws.ClassNibble.unxE nnn
  | unxF nnn => exact Laws.ClassNibble.unxF nnn

/-- The line of the opcode map that an instruction's class selects reads the instruction back from its word. -/
theorem opcodeMap_encode {i : Instr} {k : Fin 16} (hk : rowClass i = k) (h : i ≠ .cls) :
    opcodeMap[k] (encode i) = i := by
  subst hk
  cases i with
  | cls => exact absurd rfl h
  | unx0 nnn | jp nnn | unx2 nnn | unx3 nnn | unx4 nnn | unx5 nnn | unx8 nnn | unx9 nnn | ldI nnn | unxB nnn | unxC nnn
  | unxE nnn | unxF nnn => exact congrArg _ (fieldNNN_wordA _ nnn)
  | ldVx x nn | addVx x nn => exact congrArg₂ _ (fieldX_wordI _ x nn) (fieldNN_wordI _ x nn)
  | drw x y n =>
    show Instr.drw (fieldX (wordR 0xD x y n)) (fieldY (wordR 0xD x y n)) (fieldN (wordR 0xD x y n)) = .drw x y n
    simp

/-- The word `0x00E0` belongs to `CLS` alone among the well-formed instructions (R86): it has class 0, and `UNX0` does
not carry `0x0E0`. -/
theorem encode_ne_of_ne_cls {i : Instr} (hi : i ≠ .cls) (hwf : WellFormed i) : encode i ≠ 0x00E0 := by
  intro he
  have hread : opcodeMap[(0 : Fin 16)] 0x00E0 = i := by
    have hcls : rowClass i = 0 := by rw [← fieldCls_encode, he]; decide
    exact he ▸ opcodeMap_encode hcls hi
  subst hread
  exact absurd hwf (by decide)

theorem decode_encode {i : Instr} (hwf : WellFormed i) : decode (encode i) = i := by
  by_cases hi : i = .cls
  · subst hi; rfl
  · rw [decode_of_cls (fieldCls_encode i) (encode_ne_of_ne_cls hi hwf), opcodeMap_encode rfl hi]

/-- Every line of the opcode map loses nothing: the encoder gives back the word the line was given. -/
theorem encode_opcodeMap (k : Fin 16) {w : Word} (h : fieldCls w = k) : encode (opcodeMap[k] w) = w := by
  fin_cases k
  exacts [wordA_fields 0x0 h, wordA_fields 0x1 h, wordA_fields 0x2 h, wordA_fields 0x3 h, wordA_fields 0x4 h,
    wordA_fields 0x5 h, wordI_fields 0x6 h, wordI_fields 0x7 h, wordA_fields 0x8 h, wordA_fields 0x9 h,
    wordA_fields 0xA h, wordA_fields 0xB h, wordA_fields 0xC h, wordR_fields 0xD h, wordA_fields 0xE h,
    wordA_fields 0xF h]

theorem encode_decode (w : Word) : encode (decode w) = w := by
  by_cases hw : w = 0x00E0
  · subst hw; rfl
  · rw [decode_of_cls rfl hw, encode_opcodeMap _ rfl]

/-- The only ill-formed term has the word of `CLS`, which decodes to `CLS` (R151). -/
theorem wellFormed_decode (w : Word) : WellFormed (decode w) := by
  rcases h : decode w with _ | nnn
  case unx0 =>
    refine bne_iff_ne.mpr ?_
    rintro rfl
    have hw : w = 0x00E0 := by rw [← encode_decode w, h]; rfl
    rw [hw] at h
    cases h
  all_goals rfl

/-- Two bytes in memory order decode as their word, whatever lies behind them (R80, R81). -/
theorem decodeBytes_bytesOfWord (w : Word) (rest : List Byte) :
    decodeBytes (bytesOfWord w ++ rest) = .ok (decode w, rest) :=
  congrArg (fun v => Except.ok (decode v, rest)) (wordOfBytes_bytesOfWord w)

/-- Settles O1: the class nibble finds the row's line of the opcode map, and that line reads the operands back. -/
theorem decodeOfEncodeIsTheInstruction : Obligations.DecodeOfEncodeIsTheInstruction := by
  intro i hwf
  refine ⟨decode_encode hwf, fun rest => ?_⟩
  rw [decodeBytes_bytesOfWord, decode_encode hwf]

/-- Settles O2: no line of the opcode map loses a bit, and uniqueness is decoding after encoding. -/
theorem everyWordIsTheWordOfExactlyOneInstruction : Obligations.EveryWordIsTheWordOfExactlyOneInstruction := by
  refine fun w => ⟨wellFormed_decode w, encode_decode w, ?_⟩
  rintro i hwf rfl
  exact (decode_encode hwf).symm

end Sys2Proof

/-! What an instruction and a step answer, in the form the whole-machine claims use: they always answer a next state,
and only a `DRW` touches the run state (R172). -/

namespace Sys2Proof.Machine

theorem exec_total (i : Instr) (s : State) : ∃ t, exec i s = .next t := by
  rcases exec_cases i s with ⟨-, e⟩ | ⟨_, -, e⟩ | ⟨_, _, -, e⟩ | ⟨_, _, -, e⟩ | ⟨_, -, e⟩ | ⟨_, _, _, _, -, -, e⟩ |
    ⟨_, _, _, _, -, -, e⟩ | ⟨-, e⟩ <;> exact ⟨_, e⟩

/-- An instruction completes, leaving the run state, or raises, leaving all else. -/
theorem exec_completes_or_raises {i : Instr} {s t : State} (h : exec i s = .next t) :
    t.runState = s.runState ∨ ∃ c, t = raise c s := by
  rcases exec_pc_cases h with ⟨hr, -⟩ | ⟨hr, -⟩ | hraise
  exacts [.inl hr, .inl hr, .inr hraise]

/-- "No other instruction can raise anything" (R172). -/
theorem exec_runState_of_ne_drw {i : Instr} {s t : State} (hi : ∀ x y n, i ≠ .drw x y n) (h : exec i s = .next t) :
    t.runState = s.runState := by
  cases i with
  | drw x y n => exact absurd rfl (hi x y n)
  | _ => cases h; rfl

/-- The word a cycle fetches, where both its bytes are in range (R80). -/
def nextWord (s : State) : Word := wordOfBytes [s.mem.lookup s.pc.toNat, s.mem.lookup (s.pc.toNat + 1)]

theorem step_of_fetchable {s : State} (hr : s.runState = .running) (hpc : s.pc.toNat < 0xFFF) :
    step s = exec (decode (nextWord s)) s := by
  rcases step_cases s with ⟨h, -⟩ | ⟨-, h, -⟩ | ⟨-, h, -⟩ | ⟨-, -, e⟩
  · exact absurd hr h
  · omega
  · omega
  · exact e

theorem step_of_readable {s : State} {hi lo : Byte} (hr : s.runState = .running)
    (hhi : readByte s.mem s.pc.toNat = .ok hi) (hlo : readByte s.mem (s.pc.toNat + 1) = .ok lo) :
    step s = exec (decode (wordOfBytes [hi, lo])) s := by
  obtain ⟨-, rfl⟩ := readByte_ok_iff.mp hhi
  obtain ⟨hlt, rfl⟩ := readByte_ok_iff.mp hlo
  exact step_of_fetchable hr (by omega)

theorem step_of_past_end {s : State} (hr : s.runState = .running) (hpc : 0x1000 ≤ s.pc.toNat) :
    step s = .next (halt s) := by
  rcases step_cases s with ⟨h, -⟩ | ⟨-, -, e⟩ | ⟨-, h, -⟩ | ⟨-, h, -⟩
  · exact absurd hr h
  · exact e
  · omega
  · omega

theorem step_at_last_byte {s : State} (hr : s.runState = .running) (hpc : s.pc.toNat = 0xFFF) :
    step s = .next (raise (.addressOutOfRange 0x1000) s) := by
  rcases step_cases s with ⟨h, -⟩ | ⟨-, h, -⟩ | ⟨-, -, e⟩ | ⟨-, h, -⟩
  · exact absurd hr h
  · omega
  · exact e
  · omega

theorem step_of_stopped {s : State} (hr : s.runState ≠ .running) : step s = .next s := by
  rcases step_cases s with ⟨-, e⟩ | ⟨h, -⟩ | ⟨h, -⟩ | ⟨h, -⟩
  exacts [e, absurd h hr, absurd h hr, absurd h hr]

/-- A cycle that completes has fetched and executed a word (R170). -/
theorem exec_of_step_completes {s t : State} (h : step s = .next t) (hs : s.runState = .running)
    (ht : t.runState = .running) : exec (decode (nextWord s)) s = .next t := by
  rcases step_cases s with ⟨hr, -⟩ | ⟨-, -, e⟩ | ⟨-, -, e⟩ | ⟨-, -, e⟩
  · exact absurd hs hr
  · cases e.symm.trans h; cases ht
  · cases e.symm.trans h; cases ht
  · exact e.symm.trans h

theorem not_halted_of_exec {i : Instr} {s t : State} (hs : s.runState = .running) (h : exec i s = .next t) :
    t.runState ≠ .halted := by
  rcases exec_completes_or_raises h with hr | ⟨c, rfl⟩
  · rw [hr, hs]; nofun
  · nofun

/-- A decoded pair of bytes names the instruction of its word. -/
theorem decode_of_decodeBytes_pair {hi lo : Byte} {i : Instr} (h : decodeBytes [hi, lo] = .ok (i, [])) :
    decode (wordOfBytes [hi, lo]) = i := by
  cases h; rfl

end Sys2Proof.Machine

namespace Sys2Proof

open Machine

/-- Settles O10: the bytes are those the fetch reads. -/
theorem stepRunsTheDecodedInstruction : Obligations.StepRunsTheDecodedInstruction := by
  intro s hi lo i hr hhi hlo hdec
  rw [step_of_readable hr hhi hlo, decode_of_decodeBytes_pair hdec]

/-- Settles O12: this is the fetch's own fault, and `raise` writes the run state alone. -/
theorem fetchAtTheLastByteFaults : Obligations.FetchAtTheLastByteFaults := fun _ hr hpc => step_at_last_byte hr hpc

/-- Settles O9: both addresses are in range, and the two bytes make the word by `wordOfBytes_toNat`. -/
theorem fetchReadsTwoBytesHighFirst : Obligations.FetchReadsTwoBytesHighFirst := by
  intro s hr hpc
  rcases fetchStage_cases s with ⟨h, -⟩ | ⟨-, h, -⟩ | ⟨-, h, -⟩ | ⟨-, -, e⟩
  · exact absurd hr h
  · omega
  · omega
  · exact ⟨_, _, _, readByte_of_lt (by omega), readByte_of_lt (by omega), wordOfBytes_toNat _ _, e⟩

/-- Settles O11: below the end the fetch raises or an instruction runs, and neither halts. -/
theorem haltExactlyWhenPcIsPastTheEnd : Obligations.HaltExactlyWhenPcIsPastTheEnd := by
  refine fun s hr => ⟨⟨?_, fun hpc => ⟨halt s, step_of_past_end hr hpc, rfl⟩⟩, step_of_past_end hr⟩
  rintro ⟨t, ht, hhalt⟩
  rcases step_cases s with ⟨h, -⟩ | ⟨-, h, -⟩ | ⟨-, -, e⟩ | ⟨-, -, e⟩
  · exact absurd hr h
  · exact h
  · cases e.symm.trans ht; cases hhalt
  · exact absurd hhalt (not_halted_of_exec hr (e.symm.trans ht))

/-- Settles O13: the cases of a step, with the instruction's own two outcomes in the last. -/
theorem tickCompletesHaltsOrFaultsPrecisely : Obligations.TickCompletesHaltsOrFaultsPrecisely := by
  intro s hr
  rcases step_cases s with ⟨h, -⟩ | ⟨-, -, e⟩ | ⟨-, -, e⟩ | ⟨-, -, e⟩
  · exact absurd hr h
  · exact ⟨_, e, .inr (.inl rfl)⟩
  · exact ⟨_, e, .inr (.inr ⟨_, rfl⟩)⟩
  · obtain ⟨t, ht⟩ := exec_total (decode (nextWord s)) s
    refine ⟨t, e.trans ht, ?_⟩
    rcases exec_completes_or_raises ht with hrun | ⟨c, rfl⟩
    · exact .inl (hrun.trans hr)
    · exact .inr (.inr ⟨c, rfl⟩)

/-- Settles O15: a halt is no fault, and an instruction other than `DRW` leaves the machine running. -/
theorem onlyDrawAndTheLastByteFault : Obligations.OnlyDrawAndTheLastByteFault := by
  intro s t c hr ht hc
  rcases step_cases s with ⟨h, -⟩ | ⟨-, -, e⟩ | ⟨-, hpc, e⟩ | ⟨-, hpc, e⟩
  · exact absurd hr h
  · cases e.symm.trans ht; cases hc
  · cases e.symm.trans ht; cases hc; exact .inl ⟨hpc, rfl⟩
  · by_cases hi : ∃ x y n, decode (nextWord s) = .drw x y n
    · obtain ⟨x, y, n, hd⟩ := hi
      exact .inr ⟨_, _, x, y, n, readByte_of_lt (by omega), readByte_of_lt (by omega), hd⟩
    · have hrun := exec_runState_of_ne_drw (fun x y n hd => hi ⟨x, y, n, hd⟩) (e.symm.trans ht)
      rw [hc, hr] at hrun
      cases hrun

/-- Settles O16: every instruction answers a next state, and outside `DRW` with the same run state. -/
theorem instructionsOtherThanDrawRaiseNothing : Obligations.InstructionsOtherThanDrawRaiseNothing := by
  intro i s hi
  obtain ⟨t, ht⟩ := exec_total i s
  exact ⟨t, ht, exec_runState_of_ne_drw hi ht⟩

/-- Settles O18: both cycles execute one and the same instruction, and what it does to `pc` needs no other component. -/
theorem nextPcDependsOnPcAndMemoryAlone : Obligations.NextPcDependsOnPcAndMemoryAlone := by
  intro s s' t t' hs hs' hpc hmem h h' ht ht'
  have hw : nextWord s' = nextWord s := by rw [nextWord, nextWord, hpc, hmem]
  have hx := exec_of_step_completes h hs ht
  have hx' := exec_of_step_completes h' hs' ht'
  rw [hw] at hx'
  rcases exec_pc_cases hx with ⟨-, nnn, hi, e⟩ | ⟨-, hi, e⟩ | ⟨c, rfl⟩
  · rcases exec_pc_cases hx' with ⟨-, nnn', hi', e'⟩ | ⟨-, hi', -⟩ | ⟨c, rfl⟩
    · cases hi.symm.trans hi'; rw [e, e']
    · exact absurd hi (hi' nnn)
    · cases ht'
  · rcases exec_pc_cases hx' with ⟨-, nnn', hi', -⟩ | ⟨-, -, e'⟩ | ⟨c, rfl⟩
    · exact absurd hi' (hi nnn')
    · rw [e, e', hpc]
    · cases ht'
  · cases ht

theorem decode_eq_jp {w : Word} {nnn : Addr} (h : w.toNat = 0x1000 + nnn.toNat) : decode w = .jp nnn := by
  obtain ⟨hk, rfl⟩ := fields_of_formatA (k := 0x1) h
  exact decode_of_nonzero_class 0x1 (by decide) hk

/-- Settles O19: `pc` is the one component `JP` writes, and at a target of `0xFFF` the next fetch raises. -/
theorem jumpSetsPcToItsOperand : Obligations.JumpSetsPcToItsOperand := by
  refine fun nnn s => ⟨fun _ => decode_eq_jp, { s with pc := zext16 nnn }, rfl, zext16_toNat nnn, fun _ => rfl, rfl, rfl,
    fun _ => rfl, rfl, rfl, fun _ => rfl, ?_⟩
  rintro hr rfl
  exact step_at_last_byte hr (zext16_toNat 0xFFF)

/-- Settles O20: the step is the `JP`, and the `pc` it writes is the one there was. -/
theorem jumpToSelfChangesNothing : Obligations.JumpToSelfChangesNothing := by
  intro s hi lo nnn hr hhi hlo hdec hself
  have hpc : zext16 nnn = s.pc := BitVec.eq_of_toNat_eq ((zext16_toNat nnn).trans hself)
  rw [step_of_readable hr hhi hlo, decode_of_decodeBytes_pair hdec]
  exact congrArg (fun pc => Host.Outcome.next { s with pc := pc }) hpc

/-- Settles O24: a blank display, and no other component but `pc` and `draw_dirty` written. -/
theorem clearDisplayZeroesEveryCell : Obligations.ClearDisplayZeroesEveryCell := fun s =>
  ⟨advance (markDirty { s with disp := Display.blank }), rfl, Display.get_blank, rfl, advance_pc_toNat _, fun _ => rfl,
    rfl, rfl, rfl, fun _ => rfl⟩

end Sys2Proof

/-! Memory reads and the canonical form (R50, R53), and the bytes of an instruction (R81). -/

namespace Sys2Proof.Machine

/-- `MemRead` inside the address space: the bytes, lowest address first. -/
theorem memRead_of_le {m : Memory} {a n : Nat} (h : a + n ≤ 0x1000) :
    memRead m a n = .ok ((List.range n).map fun k => m.lookup (a + k)) := by
  induction n generalizing a with
  | zero => rfl
  | succ n ih =>
    have hshift : (fun k => m.lookup (a + 1 + k)) = (fun k => m.lookup (a + k)) ∘ Nat.succ :=
      funext fun k => congrArg m.lookup (by omega)
    rw [memRead, readByte_of_lt (by omega), ih (by omega), List.range_succ_eq_map, List.map_cons, List.map_map, hshift]
    rfl

/-- `MemRead` across the end: the lowest address out of range, which is the first one read when `a` is itself past the
end and `0x1000` otherwise. -/
theorem memRead_of_gt {m : Memory} {a n : Nat} (hn : 1 ≤ n) (h : 0x1000 < a + n) :
    memRead m a n = .error (.addressOutOfRange (max a 0x1000)) := by
  induction n generalizing a with
  | zero => omega
  | succ n ih =>
    rw [memRead]
    by_cases ha : a < 0x1000
    · have hmax : max (a + 1) 0x1000 = max a 0x1000 := by omega
      rw [readByte_of_lt ha, ih (by omega) (by omega), hmax]
    · rw [readByte_of_ge (by omega), max_eq_left (by omega)]

theorem Memory.wfFrom_cons {k lo : Nat} {b : Byte} {rest : Memory} :
    Memory.wfFrom lo ((k, b) :: rest) = true ↔
      lo ≤ k ∧ k < 0x1000 ∧ b ≠ Memory.unlisted k ∧ rest.wfFrom (k + 1) = true := by
  simp [wfFrom, and_assoc]

theorem Memory.lookup_head (k : Nat) (b : Byte) (rest : Memory) : Memory.lookup ((k, b) :: rest) k = b := if_pos rfl

theorem Memory.lookup_tail {k a : Nat} (b : Byte) (rest : Memory) (h : k ≠ a) :
    Memory.lookup ((k, b) :: rest) a = rest.lookup a := if_neg h

/-- A canonical list whose first entry lies at `k` reads differently from any memory that lists nothing up to `k`. -/
theorem Memory.lookup_head_ne {k lo : Nat} {b : Byte} {rest m : Memory} (h : wfFrom lo ((k, b) :: rest) = true)
    (hm : m.wfFrom (k + 1) = true) : lookup ((k, b) :: rest) k ≠ m.lookup k := by
  rw [lookup_head, lookup_of_wfFrom hm (Nat.lt_succ_self k)]
  exact (wfFrom_cons.mp h).2.2.1

/-- Canonical lists with equal contents have the same first entry, and so the same tail. -/
theorem Memory.eq_of_lookup_eq {m m' : Memory} {lo : Nat} (h : m.wfFrom lo = true) (h' : m'.wfFrom lo = true)
    (hread : ∀ a, a < 0x1000 → m.lookup a = m'.lookup a) : m = m' := by
  induction m generalizing lo m' with
  | nil =>
    cases m' with
    | nil => rfl
    | cons e' rest' => exact absurd (hread _ (wfFrom_cons.mp h').2.1).symm (lookup_head_ne h' (m := []) rfl)
  | cons e rest ih =>
    obtain ⟨k, b⟩ := e
    obtain ⟨-, hk, -, hrest⟩ := wfFrom_cons.mp h
    cases m' with
    | nil => exact absurd (hread k hk) (lookup_head_ne h (m := []) rfl)
    | cons e' rest' =>
      obtain ⟨k', b'⟩ := e'
      obtain ⟨-, hk', hb', hrest'⟩ := wfFrom_cons.mp h'
      rcases Nat.lt_trichotomy k k' with hlt | rfl | hgt
      · exact absurd (hread k hk) (lookup_head_ne h (wfFrom_cons.mpr ⟨hlt, hk', hb', hrest'⟩))
      · have hhead : b = b' := by simpa only [lookup_head] using hread k hk
        have htail : rest = rest' := ih hrest hrest' fun a ha => by
          by_cases hle : a ≤ k
          · rw [lookup_of_wfFrom hrest (by omega), lookup_of_wfFrom hrest' (by omega)]
          · simpa only [lookup_tail _ _ (show k ≠ a by omega)] using hread a ha
        rw [hhead, htail]
      · have hwf : wfFrom (k' + 1) ((k, b) :: rest) = true :=
          wfFrom_cons.mpr ⟨hgt, hk, (wfFrom_cons.mp h).2.2.1, hrest⟩
        exact absurd (hread k' hk').symm (lookup_head_ne h' hwf)

theorem lookup_eq_of_readByte_eq {m m' : Memory} {a : Nat} (ha : a < 0x1000) (h : readByte m a = readByte m' a) :
    m.lookup a = m'.lookup a := by
  rw [readByte_of_lt ha, readByte_of_lt ha] at h
  exact Except.ok.inj h

end Sys2Proof.Machine

namespace Sys2Proof

open Machine

/-- Settles O7: byte `k` of the list is the one looked up at `a + k`. -/
theorem memReadReturnsTheBytesOrTheLowestBadAddress : Obligations.MemReadReturnsTheBytesOrTheLowestBadAddress := by
  refine fun m a n hn => ⟨fun h => ⟨_, memRead_of_le h, by simp, fun k hk => ?_⟩, memRead_of_gt hn⟩
  have hkn : k < n := by simpa using hk
  rw [readByte_of_lt (by omega), List.getElem_map, List.getElem_range]

/-- Settles O8: reads that agree are lookups that agree, and those fix a canonical list entry by entry. -/
theorem canonicalMemoriesThatReadAlikeAreEqual : Obligations.CanonicalMemoriesThatReadAlikeAreEqual :=
  fun _ _ h h' hread => Memory.eq_of_lookup_eq h h' fun a ha => lookup_eq_of_readByte_eq ha (hread a)

/-- Settles O5: thirteen closed words. -/
theorem wordsOfTableV1Decode : Obligations.WordsOfTableV1Decode := by
  unfold Obligations.WordsOfTableV1Decode
  decide

/-- Settles O6: the decoder has a case for each length, and the word of two bytes is the number R80 gives. -/
theorem decodeOfBytesIsTotal : Obligations.DecodeOfBytesIsTotal :=
  ⟨rfl, fun _ => rfl, fun hi lo _ => ⟨wordOfBytes [hi, lo], wordOfBytes_toNat hi lo, rfl⟩⟩

end Sys2Proof

/-! Reset, the load of an image, and the placing of one word (R200 to R209): what memory then reads as. -/

namespace Sys2Proof.Machine

theorem readByte_reset {a : Nat} (h : a < 0x1000) : readByte State.reset.mem a = .ok (Memory.unlisted a) :=
  readByte_of_lt h

theorem Memory.unlisted_below {a : Nat} (h : a < 0x200) : Memory.unlisted a = Config.fontByte a := if_pos h

theorem readV_reset (r : RegIx) : readV State.reset r = 0 := by
  simp [readV, State.reset]

/-- Above the font region a loaded machine reads as the image, and as zero where the image has ended (R201, R206). -/
theorem lookup_load_reset {image : List Byte} (h : image.length ≤ 3584) (k : Nat) :
    (memWrite State.reset.mem 0x200 image).lookup (0x200 + k) = image.getD k 0x00 := by
  rw [lookup_memWrite reset_mem_wf (by omega)]
  split
  · rw [Nat.add_sub_cancel_left]
  · rw [List.getD_eq_default _ _ (by omega)]
    exact Memory.unlisted_above (Nat.le_add_right _ k)

/-- The launched machine (R209): running at the entry point, with the image and zeros behind it from there on. -/
theorem launched_of_launch {image : List Byte} {s : State} (h : launch image = some s) :
    s.runState = .running ∧ s.pc = 0x0200 ∧ ∀ k, s.mem.lookup (0x200 + k) = image.getD k 0x00 := by
  rw [launch, loadROM] at h
  split at h
  · rename_i hlen
    cases h
    exact ⟨rfl, rfl, lookup_load_reset hlen⟩
  · cases h

/-- A word written as its two bytes is read back from the same two addresses (R55, R80). -/
theorem wordOfBytes_lookup_memWrite {m : Memory} {a : Nat} (h : m.wf = true) (ha : a + 2 ≤ 0x1000) (w : Word) :
    wordOfBytes [(memWrite m a (bytesOfWord w)).lookup a, (memWrite m a (bytesOfWord w)).lookup (a + 1)] = w := by
  rw [lookup_memWrite h ha, lookup_memWrite h ha, if_pos ⟨le_refl a, Nat.lt_add_of_pos_right two_pos⟩,
    if_pos ⟨Nat.le_succ a, Nat.lt_succ_self _⟩, Nat.sub_self, Nat.add_sub_cancel_left]
  exact wordOfBytes_bytesOfWord w

theorem withFetchWord_pc_le (s : State) (nbits w : Nat) : (s.withFetchWord nbits w).pc.toNat ≤ 0xFFE := by
  rw [State.withFetchWord]
  dsimp only
  split
  · assumption
  · decide

theorem withFetchWord_mem (s : State) (w : Word) :
    (s.withFetchWord 16 w.toNat).mem = memWrite s.mem (s.withFetchWord 16 w.toNat).pc.toNat (bytesOfWord w) := by
  have hw : BitVec.ofNat 16 (w.toNat % 2 ^ 16) = w := by
    rw [Nat.mod_eq_of_lt w.isLt, BitVec.ofNat_toNat, BitVec.setWidth_eq]
  rw [State.withFetchWord, hw]

/-- The two bytes that `withFetchWord` stores lie where the next cycle fetches. -/
theorem nextWord_withFetchWord {s : State} (h : s.mem.wf = true) (w : Word) :
    nextWord (s.withFetchWord 16 w.toNat) = w := by
  have hpc := withFetchWord_pc_le s 16 w.toNat
  rw [nextWord, withFetchWord_mem, wordOfBytes_lookup_memWrite h (by omega)]

end Sys2Proof.Machine

namespace Sys2Proof

open Machine

/-- Settles O44: memory after reset lists nothing, and an unlisted address reads as FONT below `0x200` and as zero above,
where FONT has ended. -/
theorem resetMemoryHoldsTheFont : Obligations.ResetMemoryHoldsTheFont := by
  rintro font ⟨hlen, hfont⟩ a ha
  rw [readByte_reset (by omega)]
  by_cases h : a < 0x200
  · rw [Memory.unlisted_below h, hfont a h]
  · have hlen' : font.length ≤ 0x200 := hlen
    rw [Memory.unlisted_above (Nat.not_lt.mp h), List.getD_eq_default _ _ (by omega)]

/-- Settles O43: the reset state, component by component. -/
theorem resetGivesEveryComponentItsValue : Obligations.ResetGivesEveryComponentItsValue := by
  refine fun _ => ⟨State.reset, rfl, readV_reset, rfl, rfl, rfl, Display.get_blank, rfl, rfl, fun a ha => ?_,
    fun a hlo hhi => ?_⟩
  · rw [readByte_reset (by omega), Memory.unlisted_below ha]
  · rw [readByte_reset (by omega), Memory.unlisted_above hlo]

/-- Settles O46: the length test refuses the image, and the boot order has no tick and no load after a refused one. -/
theorem oversizedImageIsRefusedWhole : Obligations.OversizedImageIsRefusedWhole := by
  intro image s h
  have hlong : ¬ image.length ≤ Config.romMax := Nat.not_le.mpr h
  have hrefused : transact (.loadROM image) s = .refused (.imageTooLong image.length) := by
    rw [transact, loadROM, if_neg hlong]
  exact ⟨hrefused, by rw [hostRun, hrefused]; rfl, by simp [Protocol, BootPhase.after, hlong],
    fun _ => by simp [Protocol, BootPhase.after, hlong]⟩

/-- Settles O47: `pc` after reset is `0x200`, and the fetch there reads bytes 0 and 1 of the image. -/
theorem firstTickExecutesTheImagesFirstWord : Obligations.FirstTickExecutesTheImagesFirstWord := by
  intro image s h
  obtain ⟨hr, hpc, hmem⟩ := launched_of_launch h
  have hword : nextWord s = wordOfBytes [image.getD 0 0x00, image.getD 1 0x00] := by
    rw [nextWord, hpc, ← hmem 0, ← hmem 1]
    rfl
  rw [step_of_fetchable hr (by rw [hpc]; decide), hword]

/-- Settles O50: the placed state runs, its `pc` is in range, and the word fetched there is the one placed. -/
theorem placedWordIsTheNextInstruction : Obligations.PlacedWordIsTheNextInstruction := by
  intro s w h
  have hpc := withFetchWord_pc_le s 16 w.toNat
  rw [step_of_fetchable rfl (by omega), nextWord_withFetchWord h]

/-- Settles O48: `ackDisplay` writes `draw_dirty` alone. -/
theorem acknowledgeClearsDrawDirtyAlone : Obligations.AcknowledgeClearsDrawDirtyAlone := fun s =>
  ⟨ackDisplay s, rfl, rfl, fun _ => rfl, rfl, rfl, rfl, fun _ => rfl, rfl, fun _ => rfl⟩

/-- Settles O49: quotient and remainder by 64 take `y * 64 + x` apart again. -/
theorem linearDisplayIsRowAfterRow : Obligations.LinearDisplayIsRowAfterRow := by
  intro s x y k hk
  have hx : k.val % 64 = x.val := by omega
  have hy : k.val / 64 = y.val := by omega
  exact congrArg s.disp.get (Prod.ext (Fin.ext hx) (Fin.ext hy))

end Sys2Proof

/-! `DRW` (R131 to R133, R174, R177): what it answers once its phase 1 has succeeded or raised, and the reads on which
that phase depends. -/

namespace Sys2Proof.Machine

theorem exec_drw_of_scan_ok {s : State} {x y : RegIx} {n : Fin 16} {ps : List Pixel}
    (h : scanSprite s x y n = .ok ps) : exec (.drw x y n) s = .next (commitDraw ps s) := by
  rcases drawSprite_cases x y n s with ⟨qs, hq, e⟩ | ⟨c, hc, -⟩
  · cases h.symm.trans hq; exact congrArg Host.Outcome.next e
  · cases h.symm.trans hc

theorem exec_drw_of_scan_error {s : State} {x y : RegIx} {n : Fin 16} {c : Cause}
    (h : scanSprite s x y n = .error c) : exec (.drw x y n) s = .next (raise c s) := by
  rcases drawSprite_cases x y n s with ⟨qs, hq, -⟩ | ⟨c', hc, e⟩
  · cases h.symm.trans hq
  · cases h.symm.trans hc; exact congrArg Host.Outcome.next e

/-- Phase 1 reads memory, `I` and the two origin registers, and nothing else. -/
theorem scanSprite_congr {s t : State} {x y : RegIx} (n : Fin 16) (hmem : t.mem = s.mem) (hi : t.i = s.i)
    (hx : readV t x = readV s x) (hy : readV t y = readV s y) : scanSprite t x y n = scanSprite s x y n := by
  rw [scanSprite, scanSprite, spriteBase, spriteBase, coordinate, coordinate, coordinate, coordinate, hmem, hi, hx, hy]

/-- The components a commit leaves, or writes without looking at the destinations (R131). -/
theorem commitDraw_frame (ps : List Pixel) (s : State) :
    SameRegistersBut vf s (commitDraw ps s) ∧ (commitDraw ps s).drawDirty = true ∧
    (commitDraw ps s).pc.toNat = (s.pc.toNat + 2) % 65536 ∧ (commitDraw ps s).i = s.i ∧ (commitDraw ps s).sp = s.sp ∧
    (commitDraw ps s).runState = s.runState ∧ SameMemory s (commitDraw ps s) :=
  ⟨fun _ hr => commitDraw_other s hr, rfl, advance_pc_toNat _, rfl, rfl, rfl, fun _ => rfl⟩

@[simp] theorem collisionFlag_eq_one_iff {hit : Bool} : collisionFlag hit = 0x01 ↔ hit = true := by
  cases hit <;> decide

/-- After a commit VF is 1 exactly when a destination was on (R28). -/
theorem commitDraw_vf_eq_one_iff {ps : List Pixel} (hn : ps.Nodup) (s : State) :
    readV (commitDraw ps s) vf = 0x01 ↔ ∃ p ∈ ps, s.disp.get p = true := by
  rw [commitDraw_vf hn, collisionFlag_eq_one_iff, List.any_eq_true]

theorem commitDraw_vf_eq_zero {ps : List Pixel} (hn : ps.Nodup) {s : State} (h : ∀ p ∈ ps, s.disp.get p = false) :
    readV (commitDraw ps s) vf = 0x00 := by
  have hany : ps.any s.disp.get = false := List.any_eq_false.mpr fun p hp => by simp [h p hp]
  rw [commitDraw_vf hn, hany]
  rfl

theorem commitDraw_get_of_mem {ps : List Pixel} (hn : ps.Nodup) (s : State) {p : Pixel} (hp : p ∈ ps) :
    (commitDraw ps s).disp.get p = !s.disp.get p := by
  rw [commitDraw_get hn, if_pos hp]

theorem commitDraw_get_of_notMem {ps : List Pixel} (hn : ps.Nodup) (s : State) {p : Pixel} (hp : p ∉ ps) :
    (commitDraw ps s).disp.get p = s.disp.get p := by
  rw [commitDraw_get hn, if_neg hp]

theorem commitDraw_get_ne_iff {ps : List Pixel} (hn : ps.Nodup) (s : State) (p : Pixel) :
    (commitDraw ps s).disp.get p ≠ s.disp.get p ↔ p ∈ ps := by
  by_cases hp : p ∈ ps
  · rw [commitDraw_get_of_mem hn s hp]
    simp [hp]
  · rw [commitDraw_get_of_notMem hn s hp]
    simp [hp]

/-- Toggling the same cells twice is no change (R132). -/
theorem commitDraw_twice_get {ps : List Pixel} (hn : ps.Nodup) (s : State) (p : Pixel) :
    (commitDraw ps (commitDraw ps s)).disp.get p = s.disp.get p := by
  by_cases hp : p ∈ ps
  · rw [commitDraw_get_of_mem hn _ hp, commitDraw_get_of_mem hn s hp, Bool.not_not]
  · rw [commitDraw_get_of_notMem hn _ hp, commitDraw_get_of_notMem hn s hp]

/-- The second draw meets on what the first found off, and the reverse. -/
theorem commitDraw_twice_vf_eq_one_iff {ps : List Pixel} (hn : ps.Nodup) (s : State) :
    readV (commitDraw ps (commitDraw ps s)) vf = 0x01 ↔ ∃ p ∈ ps, s.disp.get p = false := by
  rw [commitDraw_vf_eq_one_iff hn]
  refine exists_congr fun p => and_congr_right fun hp => ?_
  rw [commitDraw_get_of_mem hn s hp, Bool.not_eq_true']

/-- The scan order of the columns, split at one of them. -/
theorem columnOffsets_split {c : Nat} (hc : c < 8) :
    columnOffsets = List.range c ++ c :: columnOffsets.drop (c + 1) := by
  interval_cases c <;> rfl

end Sys2Proof.Machine

namespace Sys2Proof

open Machine

theorem underSetBit_congr {s s' : State} {x y x' y' : RegIx} {n : Fin 16} (hx : readV s x = readV s' x')
    (hy : readV s y = readV s' y')
    (hb : ∀ r, r < n.val → readByte s.mem (s.i.toNat + r) = readByte s'.mem (s'.i.toNat + r)) (p : Pixel) :
    UnderSetBit s x y n p ↔ UnderSetBit s' x' y' n p := by
  rw [UnderSetBit, UnderSetBit, hx, hy]
  refine exists_congr fun r => exists_congr fun c => and_congr_right fun hr => ?_
  rw [SpriteBitSet, SpriteBitSet, hb r hr]

/-- A row whose address is out of range, behind drawable ones: phase 1 raises for it (R177). -/
theorem scanSprite_bad_address {s : State} {x y : RegIx} {n : Fin 16} {r : Nat} (hr : r < n.val)
    (hrows : ∀ q, q < r → RowDrawable s x y q) (ha : 0xFFF < s.i.toNat + r) :
    scanSprite s x y n = .error (.addressOutOfRange (s.i.toNat + r)) := by
  refine scanRows_error_iff.mpr ⟨r, hr, rowsClean_iff.mpr hrows, .inl ?_⟩
  rw [Nat.zero_add]
  exact ⟨ha, rfl⟩

/-- The first set bit outside the grid, behind drawable rows: phase 1 raises for it (R174, R177). -/
theorem scanSprite_bad_coordinate {s : State} {x y : RegIx} {n : Fin 16} {r c : Nat} (hr : r < n.val) (hc : c < 8)
    (hrows : ∀ q, q < r → RowDrawable s x y q) (hbit : SpriteBitSet s r c)
    (hout : 63 < (readV s x).toNat + c ∨ 31 < (readV s y).toNat + r)
    (hfirst : ∀ b, b < c → SpriteBitSet s r b → (readV s x).toNat + b ≤ 63 ∧ (readV s y).toNat + r ≤ 31) :
    scanSprite s x y n = .error (.drawOutOfRange ((readV s x).toNat + c) ((readV s y).toNat + r)) := by
  obtain ⟨ha, hset⟩ := spriteBitSet_iff.mp hbit
  refine scanRows_error_iff.mpr ⟨r, hr, rowsClean_iff.mpr hrows, .inr ?_⟩
  rw [Nat.zero_add]
  refine ⟨ha, scanRow_error_iff.mpr
    ⟨List.range c, c, columnOffsets.drop (c + 1), columnOffsets_split hc, fun b hb hs => ?_, hset, ?_, rfl⟩⟩
  · obtain ⟨h1, h2⟩ := hfirst b (List.mem_range.mp hb) (spriteBitSet_iff.mpr ⟨ha, hs⟩)
    rw [coordinate, coordinate]
    omega
  · rw [coordinate, coordinate]
    omega

/-- Settles O27: the destinations of the scan are the cells under set bits, each once, and the commit toggles them. -/
theorem drawTogglesTheCellsUnderSetBits : Obligations.DrawTogglesTheCellsUnderSetBits := by
  intro x y n s hd
  obtain ⟨ps, hps⟩ := scanSprite_ok_iff.mpr hd
  have hn := scanSprite_nodup hps
  have hmem := mem_scanSprite hps
  refine ⟨commitDraw ps s, exec_drw_of_scan_ok hps, fun p hp => commitDraw_get_of_mem hn s ((hmem p).mpr hp),
    fun p hp => commitDraw_get_of_notMem hn s (mt (hmem p).mp hp), ?_,
    fun hoff => commitDraw_vf_eq_zero hn fun p hp => hoff p ((hmem p).mp hp), commitDraw_frame ps s⟩
  rintro ⟨p, hp, hon⟩
  exact (commitDraw_vf_eq_one_iff hn s).mpr ⟨p, (hmem p).mpr hp, hon⟩

/-- Settles O28: no row is scanned, so that the commit has no destination. -/
theorem drawOfZeroRowsClearsVfAndDrawsNothing : Obligations.DrawOfZeroRowsClearsVfAndDrawsNothing := fun _ _ s =>
  ⟨commitDraw [] s, exec_drw_of_scan_ok rfl, fun _ => rfl, commitDraw_vf_eq_zero List.nodup_nil nofun,
    commitDraw_frame [] s⟩

/-- Settles O29: phase 1 raises, and `raise` writes the run state alone. -/
theorem drawRaisesTheFirstBadAddress : Obligations.DrawRaisesTheFirstBadAddress :=
  fun _ _ _ _ _ hr hrows ha => exec_drw_of_scan_error (scanSprite_bad_address hr hrows ha)

/-- Settles O30: phase 1 raises, and `raise` writes the run state alone. -/
theorem drawRaisesTheFirstBadCoordinate : Obligations.DrawRaisesTheFirstBadCoordinate :=
  fun _ _ _ _ _ _ hr hc hrows hbit hout hfirst =>
    exec_drw_of_scan_error (scanSprite_bad_coordinate hr hc hrows hbit hout hfirst)

/-- Settles O31: a commit leaves the machine running, and phase 1 finds destinations exactly for a drawable sprite. -/
theorem drawFaultsExactlyWhenARowIsNotDrawable : Obligations.DrawFaultsExactlyWhenARowIsNotDrawable := by
  intro x y n s hr
  rw [← scanSprite_ok_iff]
  cases hscan : scanSprite s x y n with
  | ok ps =>
    refine iff_of_false ?_ (not_not_intro ⟨ps, rfl⟩)
    rintro ⟨t, c, ht, hc⟩
    cases (exec_drw_of_scan_ok hscan).symm.trans ht
    cases hr.symm.trans hc
  | error c => exact iff_of_true ⟨_, c, exec_drw_of_scan_error hscan, rfl⟩ (by simp)

/-- Settles O32: with the origin kept the second scan finds the same destinations, and the commit is an involution on
the display. -/
theorem drawingTwiceRestoresTheDisplay : Obligations.DrawingTwiceRestoresTheDisplay := by
  intro x y n s hd
  obtain ⟨ps, hps⟩ := scanSprite_ok_iff.mpr hd
  have hn := scanSprite_nodup hps
  simp only [← mem_scanSprite hps]
  refine ⟨commitDraw ps s, exec_drw_of_scan_ok hps, commitDraw_vf_eq_one_iff hn s, fun hx hy => ?_⟩
  have hps' : scanSprite (commitDraw ps s) x y n = .ok ps := by
    rw [scanSprite_congr n (commitDraw_mem ps s) (commitDraw_i ps s) hx hy, hps]
  exact ⟨_, exec_drw_of_scan_ok hps', commitDraw_twice_get hn s, commitDraw_twice_vf_eq_one_iff hn s⟩

/-- Settles O33: each draw toggles its destinations, and those are the same cells for the same rows, origin and bytes. -/
theorem drawnCellsDependOnTheBytesAtIAlone : Obligations.DrawnCellsDependOnTheBytesAtIAlone := by
  intro x y x' y' n s s' hd hd' hx hy hb
  obtain ⟨ps, hps⟩ := scanSprite_ok_iff.mpr hd
  obtain ⟨ps', hps'⟩ := scanSprite_ok_iff.mpr hd'
  refine ⟨_, _, exec_drw_of_scan_ok hps, exec_drw_of_scan_ok hps', fun p => ?_⟩
  rw [commitDraw_get_ne_iff (scanSprite_nodup hps), commitDraw_get_ne_iff (scanSprite_nodup hps'), mem_scanSprite hps,
    mem_scanSprite hps']
  exact ⟨Iff.rfl, underSetBit_congr hx hy hb p⟩

end Sys2Proof

/-! The components that instructions leave alone or do not read: memory (R60), `sp` (R31), `draw_dirty` (R35), and the
registers outside R23's column of writes. -/

namespace Sys2Proof.Machine

theorem exec_mem {i : Instr} {s t : State} (h : exec i s = .next t) : t.mem = s.mem := by
  rcases exec_cases i s with ⟨-, e⟩ | ⟨_, -, e⟩ | ⟨_, _, -, e⟩ | ⟨_, _, -, e⟩ | ⟨_, -, e⟩ | ⟨_, _, _, _, -, -, e⟩ |
    ⟨_, _, _, _, -, -, e⟩ | ⟨-, e⟩ <;> cases e.symm.trans h <;> rfl

theorem step_mem {s t : State} (h : step s = .next t) : t.mem = s.mem := by
  rcases step_cases s with ⟨-, e⟩ | ⟨-, -, e⟩ | ⟨-, -, e⟩ | ⟨-, -, e⟩
  · cases e.symm.trans h; rfl
  · cases e.symm.trans h; rfl
  · cases e.symm.trans h; rfl
  · exact exec_mem (e.symm.trans h)

/-- `sp` goes through an instruction unread: setting it before the instruction or after it is the same (R31). -/
theorem exec_with_sp {i : Instr} {s t : State} (v : Word) (h : exec i s = .next t) :
    t.sp = s.sp ∧ exec i { s with sp := v } = .next { t with sp := v } := by
  rcases exec_cases i s with ⟨rfl, e⟩ | ⟨nnn, rfl, e⟩ | ⟨x, nn, rfl, e⟩ | ⟨x, nn, rfl, e⟩ | ⟨nnn, rfl, e⟩ |
    ⟨x, y, n, ps, rfl, hscan, e⟩ | ⟨x, y, n, c, rfl, hscan, e⟩ | ⟨hu, e⟩ <;> cases e.symm.trans h
  · exact ⟨rfl, rfl⟩
  · exact ⟨rfl, rfl⟩
  · exact ⟨rfl, rfl⟩
  · exact ⟨rfl, rfl⟩
  · exact ⟨rfl, rfl⟩
  · exact ⟨rfl, exec_drw_of_scan_ok (s := { s with sp := v }) hscan⟩
  · exact ⟨rfl, exec_drw_of_scan_error (s := { s with sp := v }) hscan⟩
  · exact ⟨rfl, exec_of_unexecuted hu _⟩

/-- `draw_dirty` is written by `CLS` and by a `DRW` that commits, as 1, and goes through every other instruction. -/
theorem exec_drawDirty_cases {i : Instr} {s t : State} (h : exec i s = .next t) :
    t.drawDirty = s.drawDirty ∨ (t.drawDirty = true ∧ (i = .cls ∨ ∃ x y n, i = .drw x y n)) := by
  rcases exec_cases i s with ⟨rfl, e⟩ | ⟨nnn, rfl, e⟩ | ⟨x, nn, rfl, e⟩ | ⟨x, nn, rfl, e⟩ | ⟨nnn, rfl, e⟩ |
    ⟨x, y, n, ps, rfl, -, e⟩ | ⟨x, y, n, c, rfl, -, e⟩ | ⟨-, e⟩ <;> cases e.symm.trans h
  · exact .inr ⟨rfl, .inl rfl⟩
  · exact .inl rfl
  · exact .inl rfl
  · exact .inl rfl
  · exact .inl rfl
  · exact .inr ⟨rfl, .inr ⟨x, y, n, rfl⟩⟩
  · exact .inl rfl
  · exact .inl rfl

/-- No instruction reads `draw_dirty` (R35). -/
theorem exec_with_drawDirty {i : Instr} {s t : State} (b : Bool) (h : exec i s = .next t) :
    ∃ d, exec i { s with drawDirty := b } = .next { t with drawDirty := d } := by
  rcases exec_cases i s with ⟨rfl, e⟩ | ⟨nnn, rfl, e⟩ | ⟨x, nn, rfl, e⟩ | ⟨x, nn, rfl, e⟩ | ⟨nnn, rfl, e⟩ |
    ⟨x, y, n, ps, rfl, hscan, e⟩ | ⟨x, y, n, c, rfl, hscan, e⟩ | ⟨hu, e⟩ <;> cases e.symm.trans h
  · exact ⟨true, rfl⟩
  · exact ⟨b, rfl⟩
  · exact ⟨b, rfl⟩
  · exact ⟨b, rfl⟩
  · exact ⟨b, rfl⟩
  · exact ⟨true, exec_drw_of_scan_ok (s := { s with drawDirty := b }) hscan⟩
  · exact ⟨b, exec_drw_of_scan_error (s := { s with drawDirty := b }) hscan⟩
  · exact ⟨b, exec_of_unexecuted hu _⟩

theorem exec_i_of_ne_ldI {i : Instr} {s t : State} (hi : ∀ nnn, i ≠ .ldI nnn) (h : exec i s = .next t) :
    t.i = s.i := by
  rcases exec_cases i s with ⟨-, e⟩ | ⟨_, -, e⟩ | ⟨_, _, -, e⟩ | ⟨_, _, -, e⟩ | ⟨nnn, rfl, e⟩ | ⟨_, _, _, _, -, -, e⟩ |
    ⟨_, _, _, _, -, -, e⟩ | ⟨-, e⟩ <;> cases e.symm.trans h
  · rfl
  · rfl
  · rfl
  · rfl
  · exact absurd rfl (hi nnn)
  · rfl
  · rfl
  · rfl

/-- A one-register write shows at its own register only. -/
theorem eq_of_readV_writeV_ne {s : State} {x r : RegIx} {b : Byte} (h : readV (writeV s x b) r ≠ readV s r) : r = x :=
  of_not_not fun hne => h (readV_writeV_other s b hne)

/-- A general register changes only as R23 lists it. -/
theorem exec_readV_cases {i : Instr} {s t : State} {r : RegIx} (h : exec i s = .next t) (hr : readV t r ≠ readV s r) :
    (∃ nn, i = .ldVx r nn) ∨ (∃ nn, i = .addVx r nn) ∨ (r = vf ∧ ∃ x y n, i = .drw x y n) := by
  rcases exec_cases i s with ⟨rfl, e⟩ | ⟨nnn, rfl, e⟩ | ⟨x, nn, rfl, e⟩ | ⟨x, nn, rfl, e⟩ | ⟨nnn, rfl, e⟩ |
    ⟨x, y, n, ps, rfl, -, e⟩ | ⟨x, y, n, c, rfl, -, e⟩ | ⟨-, e⟩ <;> cases e.symm.trans h
  · exact absurd rfl hr
  · exact absurd rfl hr
  · obtain rfl := eq_of_readV_writeV_ne hr; exact .inl ⟨nn, rfl⟩
  · obtain rfl := eq_of_readV_writeV_ne hr; exact .inr (.inl ⟨nn, rfl⟩)
  · exact absurd rfl hr
  · exact .inr (.inr ⟨of_not_not fun hne => hr (commitDraw_other s hne), x, y, n, rfl⟩)
  · exact absurd rfl hr
  · exact absurd rfl hr

end Sys2Proof.Machine

namespace Sys2Proof

open Machine

/-- Settles O37: no case of an instruction and none of a step writes the field. -/
theorem noInstructionWritesMemory : Obligations.NoInstructionWritesMemory := ⟨fun _ _ _ => exec_mem, fun _ _ => step_mem⟩

/-- Settles O39: setting `sp` commutes with every instruction. -/
theorem stackPointerIsNeitherReadNorWritten : Obligations.StackPointerIsNeitherReadNorWritten :=
  fun _ _ _ v h => exec_with_sp v h

/-- Settles O40: who writes the flag, and that setting it beforehand changes nothing else. -/
theorem drawDirtyIsRaisedOnlyByDisplayInstructions : Obligations.DrawDirtyIsRaisedOnlyByDisplayInstructions :=
  fun _ _ _ b h => ⟨exec_drawDirty_cases h, exec_with_drawDirty b h⟩

/-- Settles O41: the writers of a general register, and of `I` by contraposition. -/
theorem onlyTheListedInstructionsWriteARegister : Obligations.OnlyTheListedInstructionsWriteARegister := by
  refine fun i s t h => ⟨fun r hr => exec_readV_cases h hr, fun hi => ?_⟩
  by_contra hne
  exact hi (exec_i_of_ne_ldI (fun nnn e => hne ⟨nnn, e⟩) h)

end Sys2Proof

/-! The invariant `Legal` (R27, R30, R31, R171 to R174): reset has it, and every instruction, step and transaction of
the host keeps it. -/

namespace Sys2Proof

open Machine

/-- What phase 1 of a `DRW` raises is a legal cause: the address is the first beyond memory, since `I` is inside it and
rows are checked upward, and a coordinate is at most a byte's value plus the last column or row (R172, R173). -/
theorem legalRunState_of_scan_error {s : State} {x y : RegIx} {n : Fin 16} {c : Cause} (hi : s.i.toNat ≤ 0xFFF)
    (hpc : s.pc.toNat < 0xFFF) (h : scanSprite s x y n = .error c) : LegalRunState s.pc (.faulted c) := by
  obtain ⟨k, hk, hclean, hbad⟩ := scanRows_error_iff.mp h
  rw [Nat.zero_add, spriteBase] at hbad
  rcases hbad with ⟨ha, rfl⟩ | ⟨-, hrow⟩
  · have hlast : s.i.toNat + k ≤ 0x1000 := by
      cases k with
      | zero => omega
      | succ j =>
        have hj := (rowsClean_iff.mp hclean j (Nat.lt_succ_self j)).1
        omega
    exact ⟨by omega, by omega⟩
  · obtain ⟨before, col, after, hsplit, -, -, hout, rfl⟩ := scanRow_error_iff.mp hrow
    have hcol : col < 8 := mem_columnOffsets.mp (hsplit ▸ List.mem_append_right _ List.mem_cons_self)
    have hx : coordinate s x < 256 := (readV s x).isLt
    have hy : coordinate s y < 256 := (readV s y).isLt
    exact ⟨by omega, by omega, by omega, by omega⟩

/-- Legality looks at five components; registers, display and `draw_dirty` are free. -/
theorem Legal.of_eq {s t : State} (h : Legal s) (hmem : t.mem = s.mem) (hi : t.i = s.i) (hpc : t.pc = s.pc)
    (hsp : t.sp = s.sp) (hrun : t.runState = s.runState) : Legal t :=
  ⟨hmem ▸ h.mem_wf, hi ▸ h.i_range, hpc ▸ h.pc_range, hsp ▸ h.sp_reset, hpc ▸ hrun ▸ h.run_state⟩

/-- While the machine runs, `pc` may move anywhere up to `0x1000`. -/
theorem Legal.with_pc {s : State} (h : Legal s) (hr : s.runState = .running) {pc : Word} (hpc : pc.toNat ≤ 0x1000) :
    Legal { s with pc := pc } :=
  ⟨h.mem_wf, h.i_range, hpc, h.sp_reset, show LegalRunState pc s.runState from hr ▸ trivial⟩

theorem Legal.with_runState {s : State} (h : Legal s) {r : RunState} (hr : LegalRunState s.pc r) :
    Legal { s with runState := r } :=
  ⟨h.mem_wf, h.i_range, h.pc_range, h.sp_reset, hr⟩

theorem Legal.with_i {s : State} (h : Legal s) (nnn : Addr) : Legal { s with i := zext16 nnn } :=
  ⟨h.mem_wf, by rw [zext16_toNat]; omega, h.pc_range, h.sp_reset, h.run_state⟩

/-- An advance from an address where a word could be fetched goes at most to the end of memory (R27). -/
theorem Legal.advance {s : State} (h : Legal s) (hr : s.runState = .running) (hpc : s.pc.toNat < 0xFFF) :
    Legal (advance s) :=
  h.with_pc hr (by rw [← advance_pc, advance_pc_toNat]; omega)

/-- An instruction at an address where it could be fetched keeps the invariant. -/
theorem legal_exec {s t : State} {i : Instr} (h : Legal s) (hr : s.runState = .running) (hpc : s.pc.toNat < 0xFFF)
    (ht : exec i s = .next t) : Legal t := by
  rcases exec_cases i s with ⟨-, e⟩ | ⟨nnn, -, e⟩ | ⟨x, nn, -, e⟩ | ⟨x, nn, -, e⟩ | ⟨nnn, -, e⟩ |
    ⟨x, y, n, ps, -, -, e⟩ | ⟨x, y, n, c, -, hscan, e⟩ | ⟨-, e⟩ <;> cases e.symm.trans ht
  · exact (h.advance hr hpc).of_eq rfl rfl rfl rfl rfl
  · exact h.with_pc hr (by rw [zext16_toNat]; omega)
  · exact (h.advance hr hpc).of_eq rfl rfl rfl rfl rfl
  · exact (h.advance hr hpc).of_eq rfl rfl rfl rfl rfl
  · exact (h.with_i nnn).advance hr hpc
  · exact (h.advance hr hpc).of_eq rfl rfl rfl rfl rfl
  · exact h.with_runState (legalRunState_of_scan_error h.i_range hpc hscan)
  · exact h.advance hr hpc

/-- Settles O34: the cases of a step, with an instruction's own in the last. -/
theorem stepKeepsStatesLegal : Obligations.StepKeepsStatesLegal := by
  intro s h
  rcases step_cases s with ⟨-, e⟩ | ⟨-, hpc, e⟩ | ⟨-, hpc, e⟩ | ⟨hr, hpc, e⟩
  · exact ⟨s, e, h⟩
  · have hend : s.pc = 0x1000 := BitVec.eq_of_toNat_eq (le_antisymm h.pc_range hpc)
    exact ⟨halt s, e, h.with_runState hend⟩
  · exact ⟨_, e, h.with_runState ⟨rfl, hpc.le⟩⟩
  · obtain ⟨t, ht⟩ := exec_total (decode (nextWord s)) s
    exact ⟨t, e.trans ht, legal_exec h hr hpc ht⟩

/-- Settles O35: each of the five components has its reset value in range, and a running machine owes nothing more. -/
theorem resetStateIsLegal : Obligations.ResetStateIsLegal :=
  ⟨reset_mem_wf, by decide, by decide, rfl, trivial⟩

theorem legal_step {s t : State} (h : Legal s) (ht : step s = .next t) : Legal t := by
  obtain ⟨t', ht', hlegal⟩ := stepKeepsStatesLegal s h
  cases ht.symm.trans ht'
  exact hlegal

/-- The induction over what a host does: a predicate kept by each transaction of the list holds after the list. A
refused load leaves the machine as it was (R207), and no transaction ends in a fault. -/
theorem hostRun_induction {P : State → Prop} {ts : List Transaction}
    (hkeep : ∀ t ∈ ts, ∀ s s', P s → transact t s = .next s' → P s') {s : State} (hs : P s) : P (hostRun ts s) := by
  induction ts generalizing s with
  | nil => exact hs
  | cons t ts ih =>
    have hrest : ∀ {s' : State}, P s' → P (hostRun ts s') :=
      ih fun t' ht' => hkeep t' (List.mem_cons_of_mem t ht')
    rw [hostRun]
    cases hstep : transact t s with
    | next s' => exact hrest (hkeep t List.mem_cons_self s s' hs hstep)
    | fault r => exact hrest hs
    | refused r => exact hrest hs

/-- A load that is accepted is the load of an image that is not too long. -/
theorem loadROM_of_transact {image : List Byte} {s s' : State} (h : transact (.loadROM image) s = .next s') :
    loadROM image s = some s' := by
  rw [transact] at h
  cases hload : loadROM image s with
  | none => rw [hload] at h; cases h
  | some t => rw [hload] at h; cases h; rfl

theorem loadROM_frame {image : List Byte} {s t : State} (h : loadROM image s = some t) :
    t = { s with mem := t.mem } := by
  rw [loadROM] at h
  split at h
  · cases h; rfl
  · cases h

theorem legal_transact {t : Transaction} {s s' : State} (h : Legal s) (hs : transact t s = .next s') : Legal s' := by
  cases t with
  | reset => cases hs; exact resetStateIsLegal
  | loadROM image =>
    have hload := loadROM_of_transact hs
    have hwf := loadROM_wf h.mem_wf hload
    rw [loadROM_frame hload]
    exact ⟨hwf, h.i_range, h.pc_range, h.sp_reset, h.run_state⟩
  | tick => exact legal_step h hs
  | ackDisplay => cases hs; exact h.of_eq rfl rfl rfl rfl rfl

/-- Settles O36: each of the four transactions keeps the invariant. -/
theorem hostTransactionsKeepStatesLegal : Obligations.HostTransactionsKeepStatesLegal :=
  fun _ _ h => hostRun_induction (P := Legal) (fun _ _ _ _ => legal_transact) h

end Sys2Proof

/-! Runs of the host and of the machine: a loaded image, a stopped machine, and the slide through zeros to the halt. -/

namespace Sys2Proof

open Machine

/-- Once started, a host that keeps the boot order and does not reset only ticks and acknowledges (R208, R216). -/
theorem tick_or_ack_of_protocol_started {ts : List Transaction} (h : Protocol .started ts = true)
    (hreset : .reset ∉ ts) : ∀ t ∈ ts, t = .tick ∨ t = .ackDisplay := by
  induction ts with
  | nil => nofun
  | cons t ts ih =>
    obtain ⟨hne, hreset'⟩ := not_or.mp (mt List.mem_cons.mpr hreset)
    cases t with
    | reset => exact absurd rfl hne
    | loadROM image => cases h
    | tick => exact List.forall_mem_cons.mpr ⟨.inl rfl, ih h hreset'⟩
    | ackDisplay => exact List.forall_mem_cons.mpr ⟨.inr rfl, ih h hreset'⟩

theorem transact_mem {t : Transaction} (ht : t = .tick ∨ t = .ackDisplay) {s s' : State}
    (h : transact t s = .next s') : s'.mem = s.mem := by
  rcases ht with rfl | rfl
  · exact step_mem h
  · cases h; rfl

/-- Settles O38: the load puts the image there, and no later transaction of such a host writes memory. -/
theorem loadedImageStaysUntilReset : Obligations.LoadedImageStaysUntilReset := by
  intro image ts s hlen hreset hprot k hk
  have hstarted : Protocol .started ts = true := by
    simpa [Protocol, BootPhase.after, hlen] using hprot
  have honly := tick_or_ack_of_protocol_started hstarted hreset
  have hrun : hostRun (.reset :: .loadROM image :: ts) s =
      hostRun ts { State.reset with mem := memWrite State.reset.mem 0x200 image } := by
    show hostRun (.loadROM image :: ts) State.reset = _
    rw [hostRun, transact_loadROM_of_le hlen]
  have hmem : (hostRun (.reset :: .loadROM image :: ts) s).mem = memWrite State.reset.mem 0x200 image := by
    rw [hrun]
    exact hostRun_induction (P := fun t => t.mem = memWrite State.reset.mem 0x200 image)
      (fun t ht _ _ hp hs => (transact_mem (honly t ht) hs).trans hp) rfl
  rw [hmem, readByte_memWrite_inside reset_mem_wf (by omega) hk]

/-- Settles O14: a tick of a stopped machine answers the same state, and an acknowledgement leaves it stopped. -/
theorem stoppedMachineIgnoresTicks : Obligations.StoppedMachineIgnoresTicks := by
  intro ts
  induction ts with
  | nil => intro s _ _; rfl
  | cons t ts ih =>
    intro s hstop honly
    obtain ⟨ht, hts⟩ := List.forall_mem_cons.mp honly
    rcases ht with rfl | rfl
    · have hrun : hostRun (.tick :: ts) s = hostRun ts s := by
        rw [hostRun, transact, step_of_stopped hstop]
      rw [hrun, ih s hstop hts]
      simp
    · have hrun : hostRun (.ackDisplay :: ts) s = hostRun ts (ackDisplay s) := rfl
      rw [hrun, ih (ackDisplay s) hstop hts, if_pos List.mem_cons_self]
      exact ite_self (ackDisplay s)

/-- Zero bytes are the word of an unexecuted row, which advances `pc` (R150). -/
theorem step_of_zero_word {s : State} (hr : s.runState = .running) (hhi : readByte s.mem s.pc.toNat = .ok 0x00)
    (hlo : readByte s.mem (s.pc.toNat + 1) = .ok 0x00) : step s = .next (advance s) := by
  rw [step_of_readable hr hhi hlo]
  exact exec_of_unexecuted (by decide) s

/-- The slide (R213 (b)), by the number of words left to the end. -/
theorem run_slide (k : Nat) : ∀ s : State, s.runState = .running → s.pc.toNat + 2 * k = 0x1000 →
    (∀ a, s.pc.toNat ≤ a → a ≤ 0xFFF → readByte s.mem a = .ok 0x00) →
    Host.Core.run core (k + 1) s = .next { s with pc := 0x1000, runState := .halted } := by
  induction k with
  | zero =>
    intro s hr hk _
    have hpc : s.pc = 0x1000 := BitVec.eq_of_toNat_eq hk
    rw [← hpc]
    exact run_succ_of_next (M := core) 0 (step_of_past_end hr (by omega))
  | succ k ih =>
    intro s hr hk hzero
    have hpc : (advance s).pc.toNat = s.pc.toNat + 2 := by rw [advance_pc_toNat]; omega
    have hstep : step s = .next (advance s) :=
      step_of_zero_word hr (hzero _ (le_refl _) (by omega)) (hzero _ (Nat.le_succ _) (by omega))
    rw [run_succ_of_next (M := core) (k + 1) hstep]
    exact ih (advance s) hr (by omega) fun a ha hle => hzero a (by omega) hle

/-- Settles O42: `(0x1000 - pc) / 2` words are left, and the halt takes a tick of its own. -/
theorem zeroMemorySlidesToTheHalt : Obligations.ZeroMemorySlidesToTheHalt :=
  fun s hr hle heven hzero => run_slide _ s hr (by omega) hzero

end Sys2Proof
